-- ==== Sys2Proof/Word.lean ====
section
/-! DEFINITION. The word types of the block: the 32-bit registers and the pc (00_scope.md R9, PC_WIDTH = 32), the
64-bit command word (30_encoding.md R81), the 160-bit configuration record (R86), the 33-bit response (R90) and the
2-bit saturating counter (40_counter_history.md R110, CTR_WIDTH = 2). -/

namespace Sys2Proof

/-- A 32-bit register, and the pc operand (10_state.md R21, R24). -/
abbrev Word := BitVec 32

/-- A command word on the cmd port (30_encoding.md R81). -/
abbrev CmdWord := BitVec 64

/-- A configuration record on the cfg port (30_encoding.md R86). -/
abbrev CfgRecord := BitVec 160

/-- A response on the resp port (30_encoding.md R90). -/
abbrev RespWord := BitVec 33

/-- A saturating counter: PHT, GPHT, LPHT and CHOOSER entries (40_counter_history.md R110). -/
abbrev Counter := BitVec 2

end Sys2Proof
end

