-- ==== Sys2Proof/Syntax.lean ====
section
/-! DEFINITION. The commands of the block, one constructor per row of spec/opcode_table.json (30_encoding.md R82). -/

namespace Sys2Proof

/-- A command. INIT's operand is the record on the cfg port, not a field of its word (30_encoding.md R85). -/
inductive Instr where
  /-- `INIT`: `engine.initialize(config)` (41_engine.md R133). -/
  | init
  /-- `PREDICT pc`: `engine.predict(pc) -> bit` (41_engine.md R137). -/
  | predict (pc : Word)
  /-- `TRAIN pc, o`: `engine.train(pc, outcome)`; `true` is TAKEN (41_engine.md R140; 00_scope.md R10). -/
  | train (pc : Word) (o : Bool)
  deriving DecidableEq, Repr

end Sys2Proof
end

