-- ==== Sys2Proof/WellFormed.lean ====
section
/-! DEFINITION. Which command words are well-formed, as checks on the four fields of format CMD
(30_encoding.md R81, R87). Operand widths are carried by the types of Instr, so what can be ill-formed is a word. -/

namespace Sys2Proof

/-- The fields of format CMD, the only format (30_encoding.md R81). -/
structure CmdFields where
  /-- OP, bits [2:0]. -/
  op : BitVec 3
  /-- OUT, bit [3]. -/
  out : Bool
  /-- RSV, bits [31:4]. -/
  rsv : BitVec 28
  /-- PC, bits [63:32]. -/
  pc : Word
  deriving DecidableEq, Repr

/-- OP is one of INIT, PREDICT, TRAIN (30_encoding.md R82, R87). -/
def CmdFields.opOk (f : CmdFields) : Bool := f.op == 1#3 || f.op == 2#3 || f.op == 3#3

/-- RSV is 0 (30_encoding.md R87). -/
def CmdFields.rsvOk (f : CmdFields) : Bool := f.rsv == 0#28

/-- OUT is 0 for INIT and PREDICT (30_encoding.md R81, R87). -/
def CmdFields.outOk (f : CmdFields) : Bool := !f.out || !(f.op == 1#3 || f.op == 2#3)

/-- PC is 0 for INIT (30_encoding.md R81, R87). -/
def CmdFields.pcOk (f : CmdFields) : Bool := f.pc == 0#32 || !(f.op == 1#3)

/-- A word with these fields is a legal command (30_encoding.md R87). -/
def CmdFields.wellFormed (f : CmdFields) : Bool := f.opOk && f.rsvOk && f.outOk && f.pcOk

end Sys2Proof
end

