-- ==== Sys2Proof/Decode.lean ====
section
/-! DEFINITION. The decoder, total on 64-bit words and following the match and mask rows of 30_encoding.md R83, and
after it the encoder, following the field layout of R81 and R82. Decoding depends on no configuration (R89). -/

namespace Sys2Proof

/-- One row of the encoding table: a word w is the command when `(w & mask) == match` (30_encoding.md R83). -/
def matchesRow (w pat mask : CmdWord) : Bool := w &&& mask == pat

/-- The PC field, bits [63:32], used without extension, shift or scaling (30_encoding.md R85). -/
def wordPc (w : CmdWord) : Word := w.extractLsb' 32 32

/-- The OUT field, bit [3] (30_encoding.md R85). -/
def wordOut (w : CmdWord) : Bool := w.getLsbD 3

/-- The command a word encodes; `none` for an illegal word (30_encoding.md R83, R87). -/
def decode (w : CmdWord) : Option Instr :=
  if matchesRow w 0x0000000000000001#64 0xFFFFFFFFFFFFFFFF#64 then some .init
  else if matchesRow w 0x0000000000000002#64 0x00000000FFFFFFFF#64 then some (.predict (wordPc w))
  else if matchesRow w 0x0000000000000003#64 0x00000000FFFFFFF7#64 then some (.train (wordPc w) (wordOut w))
  else none

/-- The fields of a word (30_encoding.md R81). -/
def CmdFields.ofWord (w : CmdWord) : CmdFields :=
  { op := w.extractLsb' 0 3, out := w.getLsbD 3, rsv := w.extractLsb' 4 28, pc := w.extractLsb' 32 32 }

/-- The word with these fields: `{PC, RSV, OUT, OP}` (30_encoding.md R81). -/
def CmdFields.toWord (f : CmdFields) : CmdWord := f.pc ++ f.rsv ++ BitVec.ofBool f.out ++ f.op

/-- The fields of a command (30_encoding.md R81, R82): unused fields are 0. -/
def Instr.fields : Instr → CmdFields
  | .init => { op := 1#3, out := false, rsv := 0#28, pc := 0#32 }
  | .predict pc => { op := 2#3, out := false, rsv := 0#28, pc := pc }
  | .train pc o => { op := 3#3, out := o, rsv := 0#28, pc := pc }

/-- The one word of a command (30_encoding.md R84, R88). -/
def encode (i : Instr) : CmdWord := i.fields.toWord

/-- The 64-bit word whose low `nbits` bits are those of `w`, the bits above them 0. The block stores no words, so
there is no byte layout to pass through (20_memory.md R64). -/
def tableWord (nbits w : Nat) : CmdWord := BitVec.ofNat 64 (w % 2 ^ nbits)

/-- What the decoder reads from an instruction whose bits are `w`, numbered as spec/opcode_table.json numbers them. -/
def decodeTableWord (nbits w : Nat) : Option Instr := decode (tableWord nbits w)

end Sys2Proof
end

