-- ==== Sys2Proof/Config.lean ====
section
/-! DEFINITION. What a build of the block fixes (00_scope.md R9): the elaboration parameters, the largest history
width, and the one value the spec leaves open as a function, FOLD_HASH. -/

namespace Sys2Proof

/-- HIST_BITS_MAX, the largest legal H, L and P (00_scope.md R9). -/
def Config.histBitsMax : Nat := 30

/-- The elaboration parameters that are plain data (00_scope.md R9; 92_eei_decisions.md D4, D5, D6). A State carries
them unchanged for its whole life, so a statement about every State is a statement about every build. -/
structure Params where
  /-- CTR_INIT: what INIT writes into every pattern-table counter (D5). -/
  ctrInit : Counter
  /-- CHOOSER_INIT: what INIT writes into every chooser entry (D6). -/
  chooserInit : Counter
  /-- E_MAX: the most perceptron rows a build holds (D4). -/
  eMax : Word
  /-- K_MAX: the longest perceptron history a build holds (D4). -/
  kMax : Word
  /-- W_MAX: the largest clamp bound of a build (D4). -/
  wMax : Word
  deriving DecidableEq, Repr

/-- The build that State.reset is of: the spec's defaults CTR_INIT = CHOOSER_INIT = 1 (00_scope.md R9).
DESIGN CHOICE (log entry 5): E_MAX, K_MAX and W_MAX are OPEN and stand at their largest legal value here. -/
def Config.defaultParams : Params :=
  { ctrInit := 1#2, chooserInit := 1#2,
    eMax := 0xFFFFFFFF#32, kMax := 0xFFFFFFFF#32, wMax := 0xFFFFFFFF#32 }

/-- FOLD_HASH before it is brought into [0, E): a FREE VALUE (44_perceptron.md R224; 92_eei_decisions.md D10; log
entry 6). It has no body, so no proof can depend on a particular hash. It is a function of the pc and the whole
history vector; its first argument is the E of its range [0, E). -/
opaque Config.foldHash (e : Nat) (pc : Word) (phr : List Bool) : Nat

end Sys2Proof
end

