-- ==== Sys2Proof/Machine/State.lean ====
section
/-! DEFINITION. The state of the block (10_state.md): the engine's control registers, the configuration registers,
the scheme state, and the ports through which the driver reaches it (30_encoding.md R80); State.reset; and the
reasons a step can stop. -/

namespace Sys2Proof.Machine

/-- STATE, the operational state (10_state.md R23). -/
inductive OpState where
  /-- 0 UNCONFIGURED: after reset; only INIT is accepted. -/
  | unconfigured
  /-- 1 READY: the next command must be a PREDICT. -/
  | ready
  /-- 2 PENDING: the next command must be the TRAIN for the same pc. -/
  | pending
  /-- 3 FAULTED: every command is refused until reset. -/
  | faulted
  deriving DecidableEq, Repr

/-- FCODE, the hardware fault codes (60_exceptions.md R251). Codes 0x08 to 0xFF are never raised. -/
inductive FaultCode where
  /-- 0x00 NONE. -/
  | noFault
  /-- 0x01 CONFIG_ERROR. -/
  | configError
  /-- 0x02 ILLEGAL_COMMAND. -/
  | illegalCommand
  /-- 0x03 NOT_CONFIGURED. -/
  | notConfigured
  /-- 0x04 REINIT. -/
  | reinit
  /-- 0x05 PREDICT_WHILE_PENDING. -/
  | predictWhilePending
  /-- 0x06 TRAIN_WITHOUT_PREDICT. -/
  | trainWithoutPredict
  /-- 0x07 TRAIN_PC_MISMATCH. -/
  | trainPcMismatch
  deriving DecidableEq, Repr

/-- FDETAIL, the failing configuration check (60_exceptions.md R252). -/
inductive FaultDetail where
  /-- 0x00: every fault but CONFIG_ERROR. -/
  | noDetail
  /-- 0x01 SCHEME_UNRECOGNIZED. -/
  | schemeUnrecognized
  /-- 0x02 CFG0_RESERVED. -/
  | cfg0Reserved
  /-- 0x03 H_RANGE. -/
  | hRange
  /-- 0x04 L_RANGE. -/
  | lRange
  /-- 0x05 P_RANGE. -/
  | pRange
  /-- 0x06 E_RANGE. -/
  | eRange
  /-- 0x07 K_RANGE. -/
  | kRange
  /-- 0x08 W_RANGE. -/
  | wRange
  deriving DecidableEq, Repr

/-- The schemes that CFG0.SCHEME names (10_state.md R25). -/
inductive Scheme where
  | static
  | gshare
  | tournament
  | custom
  deriving DecidableEq, Repr

/-- A table, one of the block's address spaces (20_memory.md R61): `size` entries, indices 0 to `size - 1`. `cells`
lists, indices rising, the entries that differ from `fill`, the value every other entry has (what INIT
wrote; log entry 7). -/
structure Table (α : Type) where
  size : Nat
  fill : α
  cells : List (Nat × α)
  deriving DecidableEq, Repr

/-- The gshare scheme state (10_state.md R32, R33). -/
structure GShare where
  /-- GHR, H bits, newest outcome in bit 0. -/
  ghr : Nat
  /-- PHT, 2^H counters. -/
  pht : Table Counter
  deriving DecidableEq, Repr

/-- The tournament scheme state (10_state.md R34 to R38). -/
structure Tournament where
  /-- GHR, H bits. -/
  ghr : Nat
  /-- GPHT, 2^H counters. -/
  gpht : Table Counter
  /-- CHOOSER, 2^H counters: 0 and 1 select global, 2 and 3 local. -/
  chooser : Table Counter
  /-- LHT, 2^P local histories of L bits. -/
  lht : Table Nat
  /-- LPHT, 2^L counters. -/
  lpht : Table Counter
  deriving DecidableEq, Repr

/-- The perceptron scheme state (10_state.md R39 to R42). -/
structure Perceptron where
  /-- PHR, K bits, `h[0]` (the oldest) first. -/
  phr : List Bool
  /-- WT, E rows of K+1 weights, the bias first. -/
  wt : Table (List Int)
  /-- LAST_PRED, the latest prediction. -/
  lastPred : Bool
  /-- LAST_MAG, the latest confidence magnitude. -/
  lastMag : Nat
  deriving DecidableEq, Repr

/-- The scheme state, a tagged variant (10_state.md R31). -/
inductive SchemeState where
  /-- static has no state (R43). -/
  | static
  | gshare (g : GShare)
  | tournament (t : Tournament)
  | perceptron (q : Perceptron)
  deriving DecidableEq, Repr

/-- What the driver presents to the block (30_encoding.md R80). -/
inductive Input where
  /-- An assertion of rst (70_reset_and_hazards.md R290). -/
  | rst
  /-- A command word on cmd, with the record held on cfg. -/
  | command (word : CmdWord) (cfg : CfgRecord)
  deriving DecidableEq, Repr

/-- The state of the block and of its ports. -/
structure State where
  /-- The elaboration parameters (00_scope.md R9): no step writes them (log entry 2). -/
  params : Params
  /-- STATE (10_state.md R23). -/
  opState : OpState
  /-- CFG0 (10_state.md R25). -/
  cfg0 : Word
  /-- CFG1 = E (10_state.md R26). -/
  cfg1 : Word
  /-- CFG2 = K (10_state.md R26). -/
  cfg2 : Word
  /-- CFG3 = THETA (10_state.md R26). -/
  cfg3 : Word
  /-- CFG4 = W (10_state.md R26). -/
  cfg4 : Word
  /-- FCODE (10_state.md R27). -/
  fcode : FaultCode
  /-- FDETAIL (10_state.md R27). -/
  fdetail : FaultDetail
  /-- FCMD (10_state.md R29). -/
  fcmd : CmdWord
  /-- PEND_PC (10_state.md R30). -/
  pendPc : Word
  /-- The scheme state; `none` where it does not exist (10_state.md R31, R47). -/
  scheme : Option SchemeState
  /-- The cfg port: the record presented with the latest command (30_encoding.md R86; log entry 3). -/
  cfgPort : CfgRecord
  /-- The driver's presentations not yet taken, in issue order (20_memory.md R70; log entry 1). -/
  inputs : List Input
  /-- The resp port: the response to the latest command since reset (30_encoding.md R80, R90; log entry 4). -/
  resp : Option RespWord
  deriving DecidableEq, Repr

/-- The block right after reset or power-on (70_reset_and_hazards.md R290, R291; 10_state.md R46). -/
def State.reset : State :=
  { params := Config.defaultParams, opState := .unconfigured,
    cfg0 := 0#32, cfg1 := 0#32, cfg2 := 0#32, cfg3 := 0#32, cfg4 := 0#32,
    fcode := .noFault, fdetail := .noDetail, fcmd := 0#64, pendPc := 0#32,
    scheme := none, cfgPort := 0#160, inputs := [], resp := none }

/-- A fault OF THE MODEL. The hardware's own faults are next states (60_exceptions.md R256). -/
inductive Fault where
  /-- INDEX_RANGE (20_memory.md R62; 60_exceptions.md R254): raised by PREDICT and TRAIN for an access outside a table,
  or to a table, weight row or scheme state that does not exist. Safe: the hardware cannot take it, and no state that
  keeps the invariant does (log entry 8). -/
  | indexRange
  deriving DecidableEq, Repr

/-- A refusal OF THE MODEL. The hardware's refusal in FAULTED is a next state (41_engine.md R132). -/
inductive Refusal where
  /-- An instruction whose arm has no meaning yet. Safe. No arm answers it. -/
  | notModelled (mnemonic : String)
  deriving DecidableEq, Repr

/-- What a step answers. -/
abbrev Out := Host.Outcome State Fault Refusal

end Sys2Proof.Machine
end

