-- ==== Sys2Proof/Machine/Flags.lean ====
section
/-! DEFINITION. The block has no flags (10_state.md R22). What software sees of its condition is the STATUS view
(R28), with the codes of R23, 60_exceptions.md R251 and R252, and the response (30_encoding.md R90). -/

namespace Sys2Proof.Machine

/-- The value of STATE (10_state.md R23). -/
def OpState.bits : OpState → BitVec 2
  | .unconfigured => 0#2
  | .ready => 1#2
  | .pending => 2#2
  | .faulted => 3#2

/-- The value of FCODE (60_exceptions.md R251). -/
def FaultCode.bits : FaultCode → BitVec 8
  | .noFault => 0x00#8
  | .configError => 0x01#8
  | .illegalCommand => 0x02#8
  | .notConfigured => 0x03#8
  | .reinit => 0x04#8
  | .predictWhilePending => 0x05#8
  | .trainWithoutPredict => 0x06#8
  | .trainPcMismatch => 0x07#8

/-- The value of FDETAIL (60_exceptions.md R252). -/
def FaultDetail.bits : FaultDetail → BitVec 8
  | .noDetail => 0x00#8
  | .schemeUnrecognized => 0x01#8
  | .cfg0Reserved => 0x02#8
  | .hRange => 0x03#8
  | .lRange => 0x04#8
  | .pRange => 0x05#8
  | .eRange => 0x06#8
  | .kRange => 0x07#8
  | .wRange => 0x08#8

/-- STATUS with these fields: `{8'b0, FDETAIL, FCODE, 6'b0, STATE}` (10_state.md R28; 92_eei_decisions.md D20). -/
def statusWord (o : OpState) (c : FaultCode) (d : FaultDetail) : Word :=
  0#8 ++ d.bits ++ c.bits ++ 0#6 ++ o.bits

/-- STATUS, a view without storage (10_state.md R28). -/
def status (s : State) : Word := statusWord s.opState s.fcode s.fdetail

/-- The response: PRED in bit [0], STATUS in bits [32:1] (30_encoding.md R90). -/
def respWord (pred : Bool) (st : Word) : RespWord := st ++ BitVec.ofBool pred

/-- RESP.PRED (30_encoding.md R90). -/
def respPred (r : RespWord) : Bool := r.getLsbD 0

/-- RESP.STATUS (30_encoding.md R90). -/
def respStatus (r : RespWord) : Word := r.extractLsb' 1 32

end Sys2Proof.Machine
end

