-- ==== Sys2Proof/Machine/Operands.lean ====
section
/-! DEFINITION. The operand forms: the fields of the configuration record and of the CFG registers (10_state.md R25,
R26; 30_encoding.md R86), and the pseudocode primitives of 00_scope.md R12 over unbounded integers (R13). -/

namespace Sys2Proof.Machine

/-- `mask(n)` = 2^n - 1 (00_scope.md R12). -/
def mask (n : Nat) : Nat := 2 ^ n - 1

/-- `clamp(v, lo, hi)` (00_scope.md R12). -/
def clamp (v lo hi : Int) : Int := if v < lo then lo else if v > hi then hi else v

/-- `sgn(b)`: +1 for TAKEN, -1 for NOT-TAKEN (00_scope.md R12). -/
def sgn (b : Bool) : Int := if b then 1 else -1

/-- Word `i` of the configuration record `{CFG4, CFG3, CFG2, CFG1, CFG0}` (30_encoding.md R86). -/
def recordWord (c : CfgRecord) (i : Nat) : Word := c.extractLsb' (32 * i) 32

/-- The record with these five words (30_encoding.md R86). -/
def recordOf (c0 c1 c2 c3 c4 : Word) : CfgRecord := c4 ++ c3 ++ c2 ++ c1 ++ c0

/-- CFG0.SCHEME, bits [2:0] (10_state.md R25). -/
def cfgSchemeCode (c0 : Word) : BitVec 3 := c0.extractLsb' 0 3

/-- CFG0.H, bits [7:3] (10_state.md R25). -/
def cfgH (c0 : Word) : Nat := (c0.extractLsb' 3 5).toNat

/-- CFG0.L, bits [12:8] (10_state.md R25). -/
def cfgL (c0 : Word) : Nat := (c0.extractLsb' 8 5).toNat

/-- CFG0.P, bits [17:13] (10_state.md R25). -/
def cfgP (c0 : Word) : Nat := (c0.extractLsb' 13 5).toNat

/-- CFG0.TOUR_XOR, bit [18] (10_state.md R25). -/
def cfgTourXor (c0 : Word) : Bool := c0.getLsbD 18

/-- CFG0.PERC_HASH, bit [19]: `false` MOD, `true` FOLD (10_state.md R25). -/
def cfgPercHash (c0 : Word) : Bool := c0.getLsbD 19

/-- CFG0[31:20], reserved (10_state.md R25). -/
def cfgReserved (c0 : Word) : BitVec 12 := c0.extractLsb' 20 12

/-- The scheme a SCHEME code names; codes 4 to 7 name none (10_state.md R25; 30_encoding.md R86). -/
def schemeOfCode (s : BitVec 3) : Option Scheme :=
  match s.toNat with
  | 0 => some .static
  | 1 => some .gshare
  | 2 => some .tournament
  | 3 => some .custom
  | _ => none

/-- The active scheme (41_engine.md R136, R138). -/
def State.activeScheme (s : State) : Option Scheme := schemeOfCode (cfgSchemeCode s.cfg0)

/-- H (00_scope.md R8). -/
def State.histBits (s : State) : Nat := cfgH s.cfg0

/-- L (00_scope.md R8). -/
def State.localBits (s : State) : Nat := cfgL s.cfg0

/-- P (00_scope.md R8). -/
def State.pcBits (s : State) : Nat := cfgP s.cfg0

/-- E (10_state.md R26). -/
def State.percRows (s : State) : Nat := s.cfg1.toNat

/-- K (10_state.md R26). -/
def State.percHist (s : State) : Nat := s.cfg2.toNat

/-- THETA (10_state.md R26). -/
def State.percTheta (s : State) : Nat := s.cfg3.toNat

/-- W (10_state.md R26). -/
def State.percClamp (s : State) : Nat := s.cfg4.toNat

end Sys2Proof.Machine
end

