-- ==== Sys2Proof/Machine/Ops.lean ====
section
/-! DEFINITION. The shared operations: reading and writing a table entry (20_memory.md R62), answering a command
(41_engine.md R130), taking a fault (60_exceptions.md R256), refusing a command in FAULTED (41_engine.md R132), and
rst, the only way out of FAULTED (70_reset_and_hazards.md R290). -/

namespace Sys2Proof.Machine

/-- The listed entry at index `i`, if there is one. -/
def cellsFind {α : Type} : List (Nat × α) → Nat → Option α
  | [], _ => none
  | (j, v) :: rest, i => if j = i then some v else cellsFind rest i

/-- The list with entry `i` set to `v`, in canonical form: rising indices, no entry equal to `fill`. -/
def cellsPut {α : Type} [DecidableEq α] (fill : α) : List (Nat × α) → Nat → α → List (Nat × α)
  | [], i, v => if v = fill then [] else [(i, v)]
  | (j, w) :: rest, i, v =>
    if i < j then (if v = fill then (j, w) :: rest else (i, v) :: (j, w) :: rest)
    else if i = j then (if v = fill then rest else (i, v) :: rest)
    else (j, w) :: cellsPut fill rest i v

/-- A table with every entry at `fill` (41_engine.md R134). -/
def Table.create {α : Type} (size : Nat) (fill : α) : Table α := { size := size, fill := fill, cells := [] }

/-- The value at index `i`, in the table or not. -/
def Table.entry {α : Type} (t : Table α) (i : Nat) : α := (cellsFind t.cells i).getD t.fill

/-- `T[i]` (20_memory.md R62); `none` is INDEX_RANGE. -/
def Table.read {α : Type} (t : Table α) (i : Nat) : Option α := if i < t.size then some (t.entry i) else none

/-- `T[i] <- v` (20_memory.md R62); `none` is INDEX_RANGE. -/
def Table.write {α : Type} [DecidableEq α] (t : Table α) (i : Nat) (v : α) : Option (Table α) :=
  if i < t.size then some { t with cells := cellsPut t.fill t.cells i v } else none

/-- The canonical form of a table: indices strictly rising and inside the table, no entry equal to `fill`. -/
abbrev Table.wf {α : Type} (t : Table α) : Prop :=
  t.cells.Pairwise (fun a b => a.1 < b.1) ∧ ∀ c ∈ t.cells, c.1 < t.size ∧ c.2 ≠ t.fill

/-- `return resp(PRED = p)`: the response carries STATUS as it stands after the command's writes (41_engine.md R130;
30_encoding.md R90). -/
def respond (p : Bool) (s : State) : State := { s with resp := some (respWord p (status s)) }

/-- `raise Fault(code, detail)` during the command with word `w`: the fault entry (60_exceptions.md R256). Nothing
else is written. -/
def raiseFault (code : FaultCode) (detail : FaultDetail) (w : CmdWord) (s : State) : Out :=
  .next (respond false { s with fcode := code, fdetail := detail, fcmd := w, opState := .faulted })

/-- A command in STATE = FAULTED: refused, no state changes, the response is PRED = 0 with STATUS unchanged
(41_engine.md R132). -/
def refuse (s : State) : Out := .next (respond false s)

/-- rst (70_reset_and_hazards.md R290): every register at its reset value and no scheme state. The parameters are the
build's (00_scope.md R9); what the driver still holds on its ports is the driver's (log entries 1, 3); no command has
been answered since (log entry 4). -/
def applyRst (s : State) : State :=
  { State.reset with params := s.params, cfgPort := s.cfgPort, inputs := s.inputs }

end Sys2Proof.Machine
end

