-- ==== Sys2Proof/Machine/Primitives.lean ====
section
/-! DEFINITION. The saturating counter and the history shifts (40_counter_history.md). They write no state and raise
no fault. -/

namespace Sys2Proof.Machine

/-- `ctr_predict(v)`: NOT-TAKEN if v ≤ 1, else TAKEN (40_counter_history.md R112). -/
def ctrPredict (v : Counter) : Bool := if v.toNat ≤ 1 then false else true

/-- `ctr_train(v, o)`: one step toward the outcome, saturating at 3 and at 0 (40_counter_history.md R113). -/
def ctrTrain (v : Counter) (o : Bool) : Counter :=
  if o then (if v.toNat < 3 then v + 1#2 else 3#2)
  else (if v.toNat > 0 then v - 1#2 else 0#2)

/-- `hist_shift(h, o, n)`: the integer history shift (40_counter_history.md R117). -/
def histShift (h : Nat) (o : Bool) (n : Nat) : Nat := ((h <<< 1) ||| o.toNat) &&& mask n

/-- `perc_shift(h, o)`: the vector history shift, dropping `h[0]` and appending the outcome
(40_counter_history.md R119). -/
def percShift (h : List Bool) (o : Bool) : List Bool := h.drop 1 ++ [o]

end Sys2Proof.Machine
end

