-- ==== Sys2Proof/Machine/GShare.lean ====
section
/-! DEFINITION. The gshare scheme (42_gshare.md). `none` is INDEX_RANGE (20_memory.md R62). -/

namespace Sys2Proof.Machine

/-- `gidx(pc) = (GHR ^ pc) & mask(H)` (42_gshare.md R160). -/
def gidx (h ghr : Nat) (pc : Word) : Nat := (ghr ^^^ pc.toNat) &&& mask h

/-- GShare PREDICT body (42_gshare.md R161). -/
def gsharePredict (h : Nat) (g : GShare) (pc : Word) : Option Bool :=
  (g.pht.read (gidx h g.ghr pc)).map ctrPredict

/-- GShare TRAIN body: the counter at the index of the pre-update history, then the history (42_gshare.md R162). -/
def gshareTrain (h : Nat) (g : GShare) (pc : Word) (o : Bool) : Option GShare := do
  let i := gidx h g.ghr pc
  let v ← g.pht.read i
  let pht ← g.pht.write i (ctrTrain v o)
  return { ghr := histShift g.ghr o h, pht := pht }

end Sys2Proof.Machine
end

