-- ==== Sys2Proof/Machine/Perceptron.lean ====
section
/-! DEFINITION. The perceptron scheme (44_perceptron.md). `none` is INDEX_RANGE (20_memory.md R62). -/

namespace Sys2Proof.Machine

/-- FOLD_HASH(pc, PHR), a value in [0, E) (44_perceptron.md R224). The remainder brings the free value into its range
and rules out no function into [0, E) (log entry 6). -/
def foldRow (e : Nat) (pc : Word) (phr : List Bool) : Nat := Config.foldHash e pc phr % e

/-- `prow(pc)`: MOD, or FOLD when PERC_HASH = 1 (44_perceptron.md R210). -/
def prow (e : Nat) (percHash : Bool) (phr : List Bool) (pc : Word) : Nat :=
  if percHash then foldRow e pc phr else pc.toNat % e

/-- `y(r)` for a row of K+1 weights over a history of K bits: weight i is paired with `h[K-i]`, so weight 1 with the
newest outcome. The sum is exact (44_perceptron.md R211, R213). -/
def weightedSum (phr : List Bool) : List Int → Int
  | [] => 0
  | b :: ws => b + (List.zipWith (fun h w => sgn h * w) phr.reverse ws).sum

/-- `y(r)`, with the accesses to `h[K-i]` and `WT[r][i]` in range (44_perceptron.md R211; 20_memory.md R62). -/
def percSum (k : Nat) (phr : List Bool) (row : List Int) : Option Int :=
  if phr.length = k ∧ row.length = k + 1 then some (weightedSum phr row) else none

/-- Perceptron PREDICT body: the prediction and the state with its two latches written (44_perceptron.md R212). -/
def percPredict (e k : Nat) (percHash : Bool) (q : Perceptron) (pc : Word) : Option (Bool × Perceptron) := do
  let row ← q.wt.read (prow e percHash q.phr pc)
  let y ← percSum k q.phr row
  let p := decide (0 ≤ y)
  return (p, { q with lastPred := p, lastMag := y.natAbs })

/-- `train_now(o)` (44_perceptron.md R214). -/
def trainNow (theta : Nat) (q : Perceptron) (o : Bool) : Bool := decide (q.lastMag ≤ theta) || q.lastPred != o

/-- The row after training: each weight moves by one and is clamped into [-W, W-1] (44_perceptron.md R215, R216). -/
def trainRow (w : Nat) (phr : List Bool) (o : Bool) : List Int → List Int
  | [] => []
  | b :: ws =>
    clamp (b + (if o then 1 else -1)) (-(w : Int)) ((w : Int) - 1) ::
      List.zipWith (fun h x => clamp (x + (if h = o then 1 else -1)) (-(w : Int)) ((w : Int) - 1)) phr.reverse ws

/-- The table after the gated update of row `r` (44_perceptron.md R214, R215). -/
def trainWeights (k theta w r : Nat) (q : Perceptron) (o : Bool) : Option (Table (List Int)) :=
  if trainNow theta q o then do
    let row ← q.wt.read r
    if q.phr.length = k ∧ row.length = k + 1 then q.wt.write r (trainRow w q.phr o row) else none
  else some q.wt

/-- Perceptron TRAIN body: the row of the pre-update PHR, then the shift, which is never gated (44_perceptron.md R215,
R217). -/
def percTrain (e k theta w : Nat) (percHash : Bool) (q : Perceptron) (pc : Word) (o : Bool) : Option Perceptron := do
  let wt ← trainWeights k theta w (prow e percHash q.phr pc) q o
  return { q with wt := wt, phr := percShift q.phr o }

/-- WBITS: the least n ≥ 1 with 2^(n-1) ≥ W, the width in which a build stores a weight (10_state.md R40). -/
def weightBits (w : Nat) : Nat := Nat.clog 2 w + 1

end Sys2Proof.Machine
end

