-- ==== Sys2Proof/Machine/Static.lean ====
section
/-! DEFINITION. The static scheme (41_engine.md R141 to R143). -/

namespace Sys2Proof.Machine

/-- Static PREDICT body: TAKEN for every pc (41_engine.md R142). -/
def staticPredict (_pc : Word) : Bool := true

/-- Static TRAIN body: no effect on the scheme state (41_engine.md R143). -/
def staticTrain (x : Option SchemeState) (_pc : Word) (_o : Bool) : Option SchemeState := x

end Sys2Proof.Machine
end

