-- ==== Sys2Proof/Machine/Tournament.lean ====
section
/-! DEFINITION. The tournament scheme (43_tournament.md). `none` is INDEX_RANGE (20_memory.md R62). -/

namespace Sys2Proof.Machine

/-- `tgidx(pc)`: the raw GHR, or (GHR XOR pc) masked when TOUR_XOR = 1 (43_tournament.md R181). -/
def tgidx (h : Nat) (tourXor : Bool) (ghr : Nat) (pc : Word) : Nat :=
  if tourXor then (ghr ^^^ pc.toNat) &&& mask h else ghr

/-- `lslot(pc) = pc & mask(P)` (43_tournament.md R182). -/
def lslot (p : Nat) (pc : Word) : Nat := pc.toNat &&& mask p

/-- The global sub-prediction (43_tournament.md R181). -/
def globalPred (h : Nat) (tourXor : Bool) (t : Tournament) (pc : Word) : Option Bool :=
  (t.gpht.read (tgidx h tourXor t.ghr pc)).map ctrPredict

/-- The local sub-prediction (43_tournament.md R182). -/
def localPred (p : Nat) (t : Tournament) (pc : Word) : Option Bool := do
  let lh ← t.lht.read (lslot p pc)
  (t.lpht.read lh).map ctrPredict

/-- Tournament PREDICT body: the chooser, indexed by the raw GHR, selects (43_tournament.md R183, R184). -/
def tourPredict (h p : Nat) (tourXor : Bool) (t : Tournament) (pc : Word) : Option Bool := do
  let c ← t.chooser.read t.ghr
  if c.toNat ≤ 1 then globalPred h tourXor t pc else localPred p t pc

/-- The chooser's update: only on disagreement, one step toward the sub-prediction that was right
(43_tournament.md R185, R186). -/
def trainChooser (c : Table Counter) (ci : Nat) (gp lp o : Bool) : Option (Table Counter) :=
  if gp = lp then some c else do
    let v ← c.read ci
    c.write ci (ctrTrain v (lp == o))

/-- Tournament TRAIN body: every index and both sub-predictions from the pre-update state (43_tournament.md R185). -/
def tourTrain (h l p : Nat) (tourXor : Bool) (t : Tournament) (pc : Word) (o : Bool) : Option Tournament := do
  let gi := tgidx h tourXor t.ghr pc
  let ci := t.ghr
  let slot := lslot p pc
  let lh ← t.lht.read slot
  let gv ← t.gpht.read gi
  let lv ← t.lpht.read lh
  let chooser ← trainChooser t.chooser ci (ctrPredict gv) (ctrPredict lv) o
  let gpht ← t.gpht.write gi (ctrTrain gv o)
  let lpht ← t.lpht.write lh (ctrTrain lv o)
  let lht ← t.lht.write slot (histShift lh o l)
  return { ghr := histShift t.ghr o h, gpht := gpht, chooser := chooser, lht := lht, lpht := lpht }

end Sys2Proof.Machine
end

