-- ==== Sys2Proof/Machine/Engine.lean ====
section
/-! DEFINITION. The meanings of the three commands (41_engine.md R133, R137, R140), with the scheme dispatch
(R136, R138) and the response to each STATE (60_exceptions.md R270). -/

namespace Sys2Proof.Machine

/-- The first configuration check of INIT that fails, in the order SCHEME, reserved bits, H, L, P, E, K, W
(41_engine.md R133; 60_exceptions.md R252, R255). -/
def configCheck (b : Params) (c : CfgRecord) : Option FaultDetail :=
  let c0 := recordWord c 0
  let e := (recordWord c 1).toNat
  let k := (recordWord c 2).toNat
  let w := (recordWord c 4).toNat
  let s := (cfgSchemeCode c0).toNat
  let m := Config.histBitsMax
  if s ≥ 4 then some .schemeUnrecognized
  else if cfgReserved c0 ≠ 0#12 then some .cfg0Reserved
  else if (s = 1 ∨ s = 2) ∧ ¬(1 ≤ cfgH c0 ∧ cfgH c0 ≤ m) then some .hRange
  else if s = 2 ∧ ¬(1 ≤ cfgL c0 ∧ cfgL c0 ≤ m) then some .lRange
  else if s = 2 ∧ ¬(1 ≤ cfgP c0 ∧ cfgP c0 ≤ m) then some .pRange
  else if s = 3 ∧ ¬(1 ≤ e ∧ e ≤ b.eMax.toNat) then some .eRange
  else if s = 3 ∧ ¬(1 ≤ k ∧ k ≤ b.kMax.toNat) then some .kRange
  else if s = 3 ∧ ¬(1 ≤ w ∧ w ≤ b.wMax.toNat) then some .wRange
  else none

/-- The gshare state INIT creates (41_engine.md R134). -/
def createGShare (b : Params) (c : CfgRecord) : GShare :=
  { ghr := 0, pht := Table.create (2 ^ cfgH (recordWord c 0)) b.ctrInit }

/-- The tournament state INIT creates (41_engine.md R134). -/
def createTournament (b : Params) (c : CfgRecord) : Tournament :=
  let c0 := recordWord c 0
  { ghr := 0, gpht := Table.create (2 ^ cfgH c0) b.ctrInit, chooser := Table.create (2 ^ cfgH c0) b.chooserInit,
    lht := Table.create (2 ^ cfgP c0) 0, lpht := Table.create (2 ^ cfgL c0) b.ctrInit }

/-- The perceptron state INIT creates (41_engine.md R134). -/
def createPerceptron (c : CfgRecord) : Perceptron :=
  let k := (recordWord c 2).toNat
  { phr := List.replicate k false, wt := Table.create (recordWord c 1).toNat (List.replicate (k + 1) 0),
    lastPred := false, lastMag := 0 }

/-- `create_scheme_state(s)`: the variant of the chosen scheme, every cell initialised (41_engine.md R134). -/
def createScheme (b : Params) (c : CfgRecord) : Option SchemeState :=
  match schemeOfCode (cfgSchemeCode (recordWord c 0)) with
  | some .static => some .static
  | some .gshare => some (.gshare (createGShare b c))
  | some .tournament => some (.tournament (createTournament b c))
  | some .custom => some (.perceptron (createPerceptron c))
  | none => none

/-- What a successful INIT writes: CFG0 to CFG4, the scheme state, PEND_PC and STATE (41_engine.md R133). -/
def latchConfig (s : State) : State :=
  { s with
    cfg0 := recordWord s.cfgPort 0, cfg1 := recordWord s.cfgPort 1, cfg2 := recordWord s.cfgPort 2,
    cfg3 := recordWord s.cfgPort 3, cfg4 := recordWord s.cfgPort 4,
    scheme := createScheme s.params s.cfgPort, pendPc := 0#32, opState := .ready }

/-- INIT (41_engine.md R133). Its operand is the record on the cfg port. -/
def execInit (s : State) : Out :=
  match s.opState with
  | .faulted => refuse s
  | .ready => raiseFault .reinit .noDetail (encode .init) s
  | .pending => raiseFault .reinit .noDetail (encode .init) s
  | .unconfigured =>
    match configCheck s.params s.cfgPort with
    | some d => raiseFault .configError d (encode .init) s
    | none => .next (respond false (latchConfig s))

/-- `scheme_predict(pc)`: the prediction, and the scheme state with what the perceptron body latches
(41_engine.md R136). -/
def schemePredict (s : State) (pc : Word) : Option (Bool × Option SchemeState) :=
  match s.activeScheme, s.scheme with
  | some .static, x => some (staticPredict pc, x)
  | some .gshare, some (.gshare g) => (gsharePredict s.histBits g pc).map fun p => (p, some (.gshare g))
  | some .tournament, some (.tournament t) =>
    (tourPredict s.histBits s.pcBits (cfgTourXor s.cfg0) t pc).map fun p => (p, some (.tournament t))
  | some .custom, some (.perceptron q) =>
    (percPredict s.percRows s.percHist (cfgPercHash s.cfg0) q pc).map fun r => (r.1, some (.perceptron r.2))
  | _, _ => none

/-- `scheme_train(pc, o)`: the scheme state after it (41_engine.md R138). -/
def schemeTrain (s : State) (pc : Word) (o : Bool) : Option (Option SchemeState) :=
  match s.activeScheme, s.scheme with
  | some .static, x => some (staticTrain x pc o)
  | some .gshare, some (.gshare g) => (gshareTrain s.histBits g pc o).map fun g' => some (.gshare g')
  | some .tournament, some (.tournament t) =>
    (tourTrain s.histBits s.localBits s.pcBits (cfgTourXor s.cfg0) t pc o).map fun t' => some (.tournament t')
  | some .custom, some (.perceptron q) =>
    (percTrain s.percRows s.percHist s.percTheta s.percClamp (cfgPercHash s.cfg0) q pc o).map
      fun q' => some (.perceptron q')
  | _, _ => none

/-- PREDICT (41_engine.md R137). -/
def execPredict (pc : Word) (s : State) : Out :=
  match s.opState with
  | .faulted => refuse s
  | .unconfigured => raiseFault .notConfigured .noDetail (encode (.predict pc)) s
  | .pending => raiseFault .predictWhilePending .noDetail (encode (.predict pc)) s
  | .ready =>
    match schemePredict s pc with
    | none => .fault .indexRange
    | some (p, x) => .next (respond p { s with scheme := x, pendPc := pc, opState := .pending })

/-- TRAIN (41_engine.md R140). -/
def execTrain (pc : Word) (o : Bool) (s : State) : Out :=
  match s.opState with
  | .faulted => refuse s
  | .unconfigured => raiseFault .notConfigured .noDetail (encode (.train pc o)) s
  | .ready => raiseFault .trainWithoutPredict .noDetail (encode (.train pc o)) s
  | .pending =>
    if pc ≠ s.pendPc then raiseFault .trainPcMismatch .noDetail (encode (.train pc o)) s
    else
      match schemeTrain s pc o with
      | none => .fault .indexRange
      | some x => .next (respond false { s with scheme := x, opState := .ready })

end Sys2Proof.Machine
end

