-- ==== Sys2Proof/Machine/Dispatch.lean ====
section
/-! DEFINITION. One arm per command, each one call of its meaning (41_engine.md R130). -/

namespace Sys2Proof.Machine

/-- The effect of a decoded command on the state (41_engine.md R130). -/
def exec (i : Instr) (s : State) : Host.Outcome State Fault Refusal :=
  match i with
  | .init => Sys2Proof.Machine.execInit s
  | .predict pc => Sys2Proof.Machine.execPredict pc s
  | .train pc o => Sys2Proof.Machine.execTrain pc o s

end Sys2Proof.Machine
end

