-- ==== Sys2Proof/Machine/Command.lean ====
section
/-! DEFINITION. The command step on one presented word (41_engine.md R130), and taking what the driver presents
(30_encoding.md R80; 20_memory.md R70). -/

namespace Sys2Proof.Machine

/-- `step(w, cfg)` of 41_engine.md R130, the record being on the cfg port already: in FAULTED every word is refused;
then an illegal word faults; then the decoded command runs (60_exceptions.md R255). -/
def runCommand (w : CmdWord) (s : State) : Out :=
  if s.opState = .faulted then refuse s
  else
    match decode w with
    | none => raiseFault .illegalCommand .noDetail w s
    | some i => exec i s

/-- What the block does with one presentation of the driver. -/
def takeInput (x : Input) (s : State) : Out :=
  match x with
  | .rst => .next (applyRst s)
  | .command w c => runCommand w { s with cfgPort := c }

/-- The driver's oldest presentation is taken off the list and processed. With none, the block holds its state
unchanged and does nothing (60_exceptions.md R286). -/
def takeNext (s : State) : Out :=
  match s.inputs with
  | [] => .next s
  | x :: rest => takeInput x { s with inputs := rest }

/-- `s` with the word `w` presented as its next command, under the record that the cfg port holds. -/
def presentWord (s : State) (w : CmdWord) : State := { s with inputs := .command w s.cfgPort :: s.inputs }

end Sys2Proof.Machine
end

