-- ==== Sys2Proof/Machine/Step.lean ====
section
/-! DEFINITION. One step of the block: one presentation of the driver, processed whole (20_memory.md R66). -/

namespace Sys2Proof.Machine

/-- One step (41_engine.md R130; 70_reset_and_hazards.md R290, R300). -/
def step (s : State) : Host.Outcome State Fault Refusal := takeNext s

/-- `s` with the instruction whose table bits are `w` presented as its next command (log entry 1). -/
def State.withFetchWord (s : State) (nbits w : Nat) : State := presentWord s (tableWord nbits w)

end Sys2Proof.Machine
end

