-- ==== Sys2Proof/Machine/Assembler.lean ====
section
/-! DEFINITION. The assembler syntax (30_encoding.md R91) and the pseudo-instruction BRANCH (R92): what the driver
presents for one line of a program. It is the driver's side of the ports; no step reads it. -/

namespace Sys2Proof.Machine

/-- The fields of an INIT line; a field left out is 0 (30_encoding.md R91). -/
structure ConfigFields where
  scheme : Nat := 0
  h : Nat := 0
  l : Nat := 0
  p : Nat := 0
  tourXor : Nat := 0
  percHash : Nat := 0
  e : Nat := 0
  k : Nat := 0
  theta : Nat := 0
  w : Nat := 0
  deriving DecidableEq, Repr

/-- Every field fits the bits that hold it (10_state.md R25, R26). -/
def ConfigFields.fits (f : ConfigFields) : Bool :=
  f.scheme < 8 && f.h < 32 && f.l < 32 && f.p < 32 && f.tourXor < 2 && f.percHash < 2 &&
    f.e < 2 ^ 32 && f.k < 2 ^ 32 && f.theta < 2 ^ 32 && f.w < 2 ^ 32

/-- CFG0 with these fields (10_state.md R25). -/
def ConfigFields.cfg0 (f : ConfigFields) : Word :=
  0#12 ++ BitVec.ofNat 1 f.percHash ++ BitVec.ofNat 1 f.tourXor ++ BitVec.ofNat 5 f.p ++ BitVec.ofNat 5 f.l ++
    BitVec.ofNat 5 f.h ++ BitVec.ofNat 3 f.scheme

/-- The configuration record of an INIT line (30_encoding.md R86, R91). -/
def ConfigFields.record (f : ConfigFields) : CfgRecord :=
  recordOf f.cfg0 (BitVec.ofNat 32 f.e) (BitVec.ofNat 32 f.k) (BitVec.ofNat 32 f.theta) (BitVec.ofNat 32 f.w)

/-- A line of a program: a command, or the one pseudo-instruction (30_encoding.md R91, R92). -/
inductive AsmLine where
  | init (f : ConfigFields)
  | predict (pc : Nat)
  | train (pc : Nat) (o : Bool)
  | branch (pc : Nat) (o : Bool)
  deriving DecidableEq, Repr

/-- The two commands that `BRANCH pc, o` expands to (30_encoding.md R92). -/
def branchCommands (pc : Word) (o : Bool) : List Instr := [.predict pc, .train pc o]

/-- The presentations of a list of commands, the cfg port holding `c`. -/
def presentAll (c : CfgRecord) (is : List Instr) : List Input := is.map fun i => .command (encode i) c

/-- What the driver presents for a line, the cfg port holding `c` before it; `none` for a line whose operands do not
fit. Also the record held afterwards: PREDICT and TRAIN leave it (30_encoding.md R85, R86). -/
def assembleLine (c : CfgRecord) : AsmLine → Option (List Input × CfgRecord)
  | .init f => if f.fits then some (presentAll f.record [.init], f.record) else none
  | .predict pc => if pc < 2 ^ 32 then some (presentAll c [.predict (BitVec.ofNat 32 pc)], c) else none
  | .train pc o => if pc < 2 ^ 32 then some (presentAll c [.train (BitVec.ofNat 32 pc) o], c) else none
  | .branch pc o => if pc < 2 ^ 32 then some (presentAll c (branchCommands (BitVec.ofNat 32 pc) o), c) else none

/-- The presentations of a program's lines, in order (30_encoding.md R91). -/
def assemble (c : CfgRecord) : List AsmLine → Option (List Input)
  | [] => some []
  | x :: rest => do
    let (is, c') ← assembleLine c x
    let more ← assemble c' rest
    return is ++ more

/-! The text of a line. What R91 does not say of it is log entry 11. -/

/-- The parts of a line of text. -/
inductive AsmToken where
  | word (cs : List Char)
  | openBrace
  | closeBrace
  | equals
  | comma
  deriving DecidableEq, Repr

/-- The word read so far, if any, put before the tokens that follow it. `cs` is reversed. -/
def flushWord (cs : List Char) (ts : List AsmToken) : List AsmToken :=
  if cs = [] then ts else .word cs.reverse :: ts

/-- The tokens of a line, with the word `acc` under way; a `;` starts a comment (30_encoding.md R91). -/
def lexLine (acc : List Char) : List Char → List AsmToken
  | [] => flushWord acc []
  | c :: cs =>
    if c = ';' then flushWord acc []
    else if c = ' ' ∨ c = '\t' then flushWord acc (lexLine [] cs)
    else if c = '=' then flushWord acc (.equals :: lexLine [] cs)
    else if c = ',' then flushWord acc (.comma :: lexLine [] cs)
    else if c = Char.ofNat 123 then flushWord acc (.openBrace :: lexLine [] cs)
    else if c = Char.ofNat 125 then flushWord acc (.closeBrace :: lexLine [] cs)
    else lexLine (c :: acc) cs

/-- The value of a digit, decimal or hexadecimal. -/
def digitValue (c : Char) : Option Nat :=
  if '0' ≤ c ∧ c ≤ '9' then some (c.toNat - '0'.toNat)
  else if 'a' ≤ c ∧ c ≤ 'f' then some (c.toNat - 'a'.toNat + 10)
  else if 'A' ≤ c ∧ c ≤ 'F' then some (c.toNat - 'A'.toNat + 10)
  else none

/-- The value of a digit string in a base, continuing from `n`. -/
def digitsValue (base n : Nat) : List Char → Option Nat
  | [] => some n
  | c :: cs => do
    let d ← digitValue c
    if d < base then digitsValue base (n * base + d) cs else none

/-- A decimal integer, or a `0x` hexadecimal one in which `_` groups digits (30_encoding.md R91; 00_scope.md R11; log
entry 11). Used for `<pc>` and for the numbers of INIT's fields. -/
def parseNumber : List Char → Option Nat
  | '0' :: 'x' :: cs =>
    let ds := cs.filter (· ≠ '_')
    if ds = [] then none else digitsValue 16 0 ds
  | [] => none
  | cs => digitsValue 10 0 cs

/-- `T` or `N` (30_encoding.md R91). -/
def parseOutcome : List Char → Option Bool
  | ['T'] => some true
  | ['N'] => some false
  | _ => none

/-- A SCHEME value: a name or a number (30_encoding.md R91). -/
def parseScheme (v : List Char) : Option Nat :=
  if v = ['s', 't', 'a', 't', 'i', 'c'] then some 0
  else if v = ['g', 's', 'h', 'a', 'r', 'e'] then some 1
  else if v = ['t', 'o', 'u', 'r', 'n', 'a', 'm', 'e', 'n', 't'] then some 2
  else if v = ['c', 'u', 's', 't', 'o', 'm'] then some 3
  else parseNumber v

/-- A PERC_HASH value: `mod`, `fold`, or a number (30_encoding.md R91). -/
def parseHash (v : List Char) : Option Nat :=
  if v = ['m', 'o', 'd'] then some 0
  else if v = ['f', 'o', 'l', 'd'] then some 1
  else parseNumber v

/-- One `<field>=<value>` of an INIT line (30_encoding.md R91). DESIGN CHOICE (log entry 11): every number of a field is
read as a `<pc>` is, decimal or `0x` hexadecimal; R91 says that of `<pc>` only. -/
def setField (f : ConfigFields) (k v : List Char) : Option ConfigFields :=
  if k = ['S', 'C', 'H', 'E', 'M', 'E'] then (parseScheme v).map fun n => { f with scheme := n }
  else if k = ['H'] then (parseNumber v).map fun n => { f with h := n }
  else if k = ['L'] then (parseNumber v).map fun n => { f with l := n }
  else if k = ['P'] then (parseNumber v).map fun n => { f with p := n }
  else if k = ['T', 'O', 'U', 'R', '_', 'X', 'O', 'R'] then (parseNumber v).map fun n => { f with tourXor := n }
  else if k = ['P', 'E', 'R', 'C', '_', 'H', 'A', 'S', 'H'] then (parseHash v).map fun n => { f with percHash := n }
  else if k = ['E'] then (parseNumber v).map fun n => { f with e := n }
  else if k = ['K'] then (parseNumber v).map fun n => { f with k := n }
  else if k = ['T', 'H', 'E', 'T', 'A'] then (parseNumber v).map fun n => { f with theta := n }
  else if k = ['W'] then (parseNumber v).map fun n => { f with w := n }
  else none

/-- The fields of an INIT line after `INIT {`, up to the closing brace; `seen` holds the fields already given.
DESIGN CHOICE (log entry 11): no field may be given again, a comma stands between two fields and nowhere else (none
after the last), and a list without fields is allowed. -/
def parseFields (f : ConfigFields) (seen : List (List Char)) : List AsmToken → Option ConfigFields
  | [.closeBrace] => if seen = [] then some f else none
  | [.word k, .equals, .word v, .closeBrace] => if k ∈ seen then none else setField f k v
  | .word k :: .equals :: .word v :: .comma :: rest =>
    if k ∈ seen then none
    else
      match setField f k v with
      | some f' => parseFields f' (k :: seen) rest
      | none => none
  | _ => none

/-- A line of text (30_encoding.md R91, R92). `none`: not a line of the syntax. `some none`: an empty line. -/
def parseLine (cs : List Char) : Option (Option AsmLine) :=
  match lexLine [] cs with
  | [] => some none
  | .word m :: .openBrace :: rest =>
    if m = ['I', 'N', 'I', 'T'] then (parseFields {} [] rest).map fun f => some (.init f) else none
  | [.word m, .word n] =>
    if m = ['P', 'R', 'E', 'D', 'I', 'C', 'T'] then (parseNumber n).map fun pc => some (.predict pc) else none
  | [.word m, .word n, .comma, .word t] => do
    let pc ← parseNumber n
    let o ← parseOutcome t
    if m = ['T', 'R', 'A', 'I', 'N'] then some (some (.train pc o))
    else if m = ['B', 'R', 'A', 'N', 'C', 'H'] then some (some (.branch pc o))
    else none
  | _ => none

/-- The lines of a program's text. -/
def parseProgram : List (List Char) → Option (List AsmLine)
  | [] => some []
  | cs :: rest => do
    let x ← parseLine cs
    let more ← parseProgram rest
    return x.toList ++ more

/-! The ports over a byte-wide transport, least significant byte first (20_memory.md R64; log entry 12). -/

/-- The `n` low bytes of an integer, least significant first. -/
def bytesLE : Nat → Nat → List (BitVec 8)
  | 0, _ => []
  | n + 1, w => BitVec.ofNat 8 w :: bytesLE n (w / 256)

/-- The integer of a list of bytes, least significant first. -/
def ofBytesLE : List (BitVec 8) → Nat
  | [] => 0
  | b :: bs => b.toNat + 256 * ofBytesLE bs

/-- A command word as 8 bytes (20_memory.md R64). -/
def cmdBytes (w : CmdWord) : List (BitVec 8) := bytesLE 8 w.toNat

/-- A configuration record as 20 bytes, CFG0 first (20_memory.md R64; 30_encoding.md R86). -/
def recordBytes (c : CfgRecord) : List (BitVec 8) := bytesLE 20 c.toNat

/-- A response as 5 bytes, the bits above [32] being 0 (20_memory.md R64; log entry 12). -/
def respBytes (r : RespWord) : List (BitVec 8) := bytesLE 5 r.toNat

end Sys2Proof.Machine
end

