-- ==== Sys2Proof/Safety.lean ====
section
/-! DEFINITION. What a state that the block can be in looks like (10_state.md R44; `BlockInv`), and how a run of a driver
can end (70_reset_and_hazards.md R299). No meaning reads any of this: the rules mask and clamp for themselves. -/

namespace Sys2Proof.Machine

/-- The record that CFG0 to CFG4 hold. -/
def State.cfgRecord (s : State) : CfgRecord := recordOf s.cfg0 s.cfg1 s.cfg2 s.cfg3 s.cfg4

/-- Every weight of a row lies in [-W, W-1] and the row has K+1 of them (10_state.md R40, R44). -/
def RowOk (k w : Nat) (row : List Int) : Prop :=
  row.length = k + 1 ∧ ∀ x ∈ row, -(w : Int) ≤ x ∧ x ≤ (w : Int) - 1

/-- A table of `size` entries in canonical form. -/
def TableOk {α : Type} (size : Nat) (t : Table α) : Prop := t.size = size ∧ t.wf

/-- The gshare invariants (10_state.md R32, R33, R44). -/
structure GShareOk (h : Nat) (g : GShare) : Prop where
  ghr : g.ghr < 2 ^ h
  pht : TableOk (2 ^ h) g.pht

/-- The tournament invariants (10_state.md R34 to R38, R44). -/
structure TournamentOk (h l p : Nat) (t : Tournament) : Prop where
  ghr : t.ghr < 2 ^ h
  gpht : TableOk (2 ^ h) t.gpht
  chooser : TableOk (2 ^ h) t.chooser
  lht : TableOk (2 ^ p) t.lht
  lpht : TableOk (2 ^ l) t.lpht
  local_lt : ∀ i, t.lht.entry i < 2 ^ l

/-- The perceptron invariants (10_state.md R39 to R42, R44). -/
structure PerceptronOk (e k w : Nat) (q : Perceptron) : Prop where
  phr : q.phr.length = k
  wt : TableOk e q.wt
  rows : ∀ r, RowOk k w (q.wt.entry r)
  mag : q.lastMag ≤ (k + 1) * w

/-- The latches are those of the row that the pending pc selects (44_perceptron.md R223). -/
def LatchOk (e k : Nat) (percHash : Bool) (pendPc : Word) (q : Perceptron) : Prop :=
  q.lastPred = decide (0 ≤ weightedSum q.phr (q.wt.entry (prow e percHash q.phr pendPc))) ∧
  q.lastMag = (weightedSum q.phr (q.wt.entry (prow e percHash q.phr pendPc))).natAbs ∧
  q.phr.length = k

/-- The scheme state is the variant CFG0.SCHEME selects, and keeps its invariants (10_state.md R31, R44). -/
def SchemeOk (s : State) (x : SchemeState) : Prop :=
  match s.activeScheme, x with
  | some .static, .static => True
  | some .gshare, .gshare g => GShareOk s.histBits g
  | some .tournament, .tournament t => TournamentOk s.histBits s.localBits s.pcBits t
  | some .custom, .perceptron q =>
    PerceptronOk s.percRows s.percHist s.percClamp q ∧
      (s.opState = .pending → LatchOk s.percRows s.percHist (cfgPercHash s.cfg0) s.pendPc q)
  | _, _ => False

/-- No configuration is latched: no scheme state exists and CFG0 to CFG4 and PEND_PC are 0 (10_state.md R46, R47;
60_exceptions.md R257). -/
def Unlatched (s : State) : Prop :=
  s.scheme = none ∧ s.cfg0 = 0#32 ∧ s.cfg1 = 0#32 ∧ s.cfg2 = 0#32 ∧ s.cfg3 = 0#32 ∧ s.cfg4 = 0#32 ∧ s.pendPc = 0#32

/-- A legal configuration is latched and its scheme state exists (41_engine.md R133, R134). -/
def Latched (s : State) : Prop :=
  configCheck s.params s.cfgRecord = none ∧ ∃ x, s.scheme = some x ∧ SchemeOk s x

/-- The fault record agrees with STATE: a fault is recorded exactly in FAULTED, and a detail exactly with
CONFIG_ERROR (10_state.md R27, R29; 60_exceptions.md R251, R252, R258). -/
structure FaultRecordOk (s : State) : Prop where
  code : s.opState = .faulted ↔ s.fcode ≠ .noFault
  detail : s.fcode = .configError ↔ s.fdetail ≠ .noDetail
  word : s.fcode = .noFault → s.fcmd = 0#64

/-- The elaboration parameters are legal (00_scope.md R9). -/
abbrev ParamsOk (b : Params) : Prop := 1 ≤ b.eMax.toNat ∧ 1 ≤ b.kMax.toNat ∧ 1 ≤ b.wMax.toNat

/-- The response on the port carries STATUS as it stands, and a prediction of TAKEN only after a PREDICT
(30_encoding.md R90; 41_engine.md R130). -/
def RespOk (s : State) : Prop :=
  ∀ r, s.resp = some r → respStatus r = status s ∧ (respPred r = true → s.opState = .pending)

/-- The invariant of the block: every state it can be in is like this (10_state.md R44). -/
structure BlockInv (s : State) : Prop where
  params : ParamsOk s.params
  faultRecord : FaultRecordOk s
  unconfigured : s.opState = .unconfigured → Unlatched s
  configured : s.opState = .ready ∨ s.opState = .pending → Latched s
  faulted : s.opState = .faulted → Unlatched s ∨ Latched s
  resp : RespOk s

/-- The condition of each row of the FDETAIL table, each on its own, without the order of the checks
(60_exceptions.md R252). -/
def ConfigFault (b : Params) (c : CfgRecord) : FaultDetail → Prop
  | .noDetail => False
  | .schemeUnrecognized => 4 ≤ (cfgSchemeCode (recordWord c 0)).toNat
  | .cfg0Reserved => cfgReserved (recordWord c 0) ≠ 0#12
  | .hRange =>
    (cfgSchemeCode (recordWord c 0) = 1#3 ∨ cfgSchemeCode (recordWord c 0) = 2#3) ∧
      (cfgH (recordWord c 0) < 1 ∨ 30 < cfgH (recordWord c 0))
  | .lRange => cfgSchemeCode (recordWord c 0) = 2#3 ∧ (cfgL (recordWord c 0) < 1 ∨ 30 < cfgL (recordWord c 0))
  | .pRange => cfgSchemeCode (recordWord c 0) = 2#3 ∧ (cfgP (recordWord c 0) < 1 ∨ 30 < cfgP (recordWord c 0))
  | .eRange =>
    cfgSchemeCode (recordWord c 0) = 3#3 ∧ ((recordWord c 1).toNat < 1 ∨ b.eMax.toNat < (recordWord c 1).toNat)
  | .kRange =>
    cfgSchemeCode (recordWord c 0) = 3#3 ∧ ((recordWord c 2).toNat < 1 ∨ b.kMax.toNat < (recordWord c 2).toNat)
  | .wRange =>
    cfgSchemeCode (recordWord c 0) = 3#3 ∧ ((recordWord c 4).toNat < 1 ∨ b.wMax.toNat < (recordWord c 4).toNat)

/-- The weighted sum written by index, as 44_perceptron.md R211 writes it:
`WT[r][0] + sum over i = 1 .. K of sgn(h[K-i]) * WT[r][i]`. -/
def indexedSum (k : Nat) (phr : List Bool) (row : List Int) : Int :=
  row.getD 0 0 + ((List.range' 1 k).map fun i => sgn (phr.getD (k - i) false) * row.getD i 0).sum

/-- `n` steps of the machine. -/
abbrev run (n : Nat) (s : State) : Out := Host.Core.run Sys2Proof.core n s

/-- The driver's presentations for a list of branches, each a PREDICT and then the TRAIN with the same pc
(30_encoding.md R92; 70_reset_and_hazards.md R293). -/
def presentBranches (c : CfgRecord) (bs : List (Word × Bool)) : List Input :=
  presentAll c (bs.flatMap fun b => branchCommands b.1 b.2)

/-- How a run that has presented its last command has ended (70_reset_and_hazards.md R299). -/
inductive RunEnd where
  /-- The last response shows READY, with FCODE = 0: every branch predicted was trained. -/
  | complete
  /-- The last response shows PENDING: a predicted branch was never trained. Not a fault. -/
  | incomplete
  /-- The last response shows FAULTED. -/
  | failed
  deriving DecidableEq, Repr

/-- The end of the run that a last response shows (70_reset_and_hazards.md R299); `none`: none of the three. -/
def runEndOf (r : RespWord) : Option RunEnd :=
  if (respStatus r).extractLsb' 0 2 = 1#2 ∧ (respStatus r).extractLsb' 8 8 = 0#8 then some .complete
  else if (respStatus r).extractLsb' 0 2 = 2#2 then some .incomplete
  else if (respStatus r).extractLsb' 0 2 = 3#2 then some .failed
  else none

/-- How the run has ended (70_reset_and_hazards.md R299); `none` while a presentation, a command or a rst, is left, and
where there is no response. DESIGN CHOICE (log entry 13): R299 does not speak of rst. A run that a rst ends is of no
kind: while the rst is presented the run goes on, and after it resp is empty (log entry 4). -/
def State.runEnd (s : State) : Option RunEnd :=
  if s.inputs = [] then s.resp.bind runEndOf else none

end Sys2Proof.Machine
end

