-- ==== Sys2Proof/Certificates/Slice0/Obligations.lean ====
section
/-! DEFINITION. The statements about the model, from the numbered rules of spec/. -/

open Sys2Proof Sys2Proof.Machine

/-! ### Encoding (30_encoding.md) -/

/-- Decode and encode agree in both directions (30_encoding.md R81, R83, R84, R88). -/
def Obligations.DecodeAndEncodeAgree : Prop :=
  (∀ i : Instr, decode (encode i) = some i) ∧
  ∀ (w : CmdWord) (i : Instr), decode w = some i → encode i = w

/-- The three rows of the match and mask table, with their free fields, and no word matches two rows
(30_encoding.md R83). -/
def Obligations.WordsMatchTheEncodingTable : Prop :=
  ∀ w : CmdWord,
    (decode w = some .init ↔ w &&& 0xFFFFFFFFFFFFFFFF#64 = 0x0000000000000001#64) ∧
    (∀ pc, decode w = some (.predict pc) ↔
      w &&& 0x00000000FFFFFFFF#64 = 0x0000000000000002#64 ∧ pc = w.extractLsb' 32 32) ∧
    (∀ pc o, decode w = some (.train pc o) ↔
      w &&& 0x00000000FFFFFFF7#64 = 0x0000000000000003#64 ∧ pc = w.extractLsb' 32 32 ∧ o = w.getLsbD 3) ∧
    ¬(w &&& 0xFFFFFFFFFFFFFFFF#64 = 0x0000000000000001#64 ∧ w &&& 0x00000000FFFFFFFF#64 = 0x0000000000000002#64) ∧
    ¬(w &&& 0xFFFFFFFFFFFFFFFF#64 = 0x0000000000000001#64 ∧ w &&& 0x00000000FFFFFFF7#64 = 0x0000000000000003#64) ∧
    ¬(w &&& 0x00000000FFFFFFFF#64 = 0x0000000000000002#64 ∧ w &&& 0x00000000FFFFFFF7#64 = 0x0000000000000003#64)

/-- The illegal words are the four listed kinds, and presenting one outside FAULTED takes the fault ILLEGAL_COMMAND
(30_encoding.md R87). -/
def Obligations.IllegalWordsTakeIllegalCommand : Prop :=
  (∀ w : CmdWord, decode w = none ↔
    (w.extractLsb' 0 3 = 0#3 ∨ 4 ≤ (w.extractLsb' 0 3).toNat) ∨
    w.extractLsb' 4 28 ≠ 0#28 ∨
    (w.getLsbD 3 = true ∧ (w.extractLsb' 0 3 = 1#3 ∨ w.extractLsb' 0 3 = 2#3)) ∨
    (w.extractLsb' 32 32 ≠ 0#32 ∧ w.extractLsb' 0 3 = 1#3)) ∧
  ∀ (s : State) (w : CmdWord) (c : CfgRecord) (rest : List Input),
    s.inputs = .command w c :: rest → s.opState ≠ .faulted → decode w = none →
    step s = .next
      { s with
        inputs := rest, cfgPort := c, opState := .faulted, fcode := .illegalCommand, fdetail := .noDetail, fcmd := w,
        resp := some (respWord false (statusWord .faulted .illegalCommand .noDetail)) }

/-- The encoding examples (30_encoding.md R93). -/
def Obligations.EncodingExamples : Prop :=
  encode .init = 0x0000000000000001#64 ∧
  encode (.predict 4#32) = 0x0000000400000002#64 ∧ decode 0x0000000400000002#64 = some (.predict 4#32) ∧
  encode (.train 4#32 true) = 0x000000040000000B#64 ∧ decode 0x000000040000000B#64 = some (.train 4#32 true) ∧
  encode (.train 4#32 false) = 0x0000000400000003#64 ∧ decode 0x0000000400000003#64 = some (.train 4#32 false) ∧
  encode (.predict 0xFFFFFFFF#32) = 0xFFFFFFFF00000002#64 ∧
  encode (.train 0x80000000#32 true) = 0x800000000000000B#64 ∧
  decode 0x0000000000000001#64 = some .init ∧
  decode 0xFFFFFFFF00000002#64 = some (.predict 0xFFFFFFFF#32) ∧
  decode 0x800000000000000B#64 = some (.train 0x80000000#32 true) ∧
  decode 0x0000000000000000#64 = none ∧
  decode 0x000000040000000A#64 = none ∧
  ({ scheme := 1, h := 2 } : ConfigFields).record = recordOf 0x00000011#32 0#32 0#32 0#32 0#32 ∧
  ({ scheme := 2, h := 2, l := 2, p := 2 } : ConfigFields).record = recordOf 0x00004212#32 0#32 0#32 0#32 0#32 ∧
  ({ scheme := 2, h := 2, l := 2, p := 2, tourXor := 1 } : ConfigFields).record =
    recordOf 0x00044212#32 0#32 0#32 0#32 0#32 ∧
  ({ scheme := 3, e := 4, k := 2, theta := 1, w := 4 } : ConfigFields).record =
    recordOf 0x00000003#32 4#32 2#32 1#32 4#32 ∧
  ({ scheme := 0 } : ConfigFields).record = recordOf 0#32 0#32 0#32 0#32 0#32

/-- Every field packed into a configuration record reads back from its bits (10_state.md R25, R26;
30_encoding.md R86). -/
def Obligations.ConfigFieldsReadBack : Prop :=
  ∀ f : ConfigFields, f.fits = true →
    (cfgSchemeCode (recordWord f.record 0)).toNat = f.scheme ∧
    cfgH (recordWord f.record 0) = f.h ∧ cfgL (recordWord f.record 0) = f.l ∧ cfgP (recordWord f.record 0) = f.p ∧
    cfgTourXor (recordWord f.record 0) = decide (f.tourXor = 1) ∧
    cfgPercHash (recordWord f.record 0) = decide (f.percHash = 1) ∧
    cfgReserved (recordWord f.record 0) = 0#12 ∧
    (recordWord f.record 1).toNat = f.e ∧ (recordWord f.record 2).toNat = f.k ∧
    (recordWord f.record 3).toNat = f.theta ∧ (recordWord f.record 4).toNat = f.w

/-- BRANCH expands to PREDICT and then TRAIN of the same pc, as words (30_encoding.md R92). -/
def Obligations.BranchExpandsToPredictThenTrain : Prop :=
  ∀ (c : CfgRecord) (pc : Nat) (o : Bool), pc < 2 ^ 32 →
    assembleLine c (.branch pc o) =
      some ([.command (BitVec.ofNat 32 pc ++ 2#32) c,
        .command (BitVec.ofNat 32 pc ++ (if o then 11#32 else 3#32)) c], c)

/-! ### The command step (41_engine.md R130), STATUS and the response -/

/-- A presented word that decodes to a command, outside FAULTED, runs exactly that command on the state with the
presentation taken and its record on the cfg port (41_engine.md R130). -/
def Obligations.StepRunsTheDecodedCommand : Prop :=
  ∀ (s : State) (w : CmdWord) (c : CfgRecord) (rest : List Input) (i : Instr),
    s.inputs = .command w c :: rest → s.opState ≠ .faulted → decode w = some i →
    step s = exec i { s with inputs := rest, cfgPort := c }

/-- In FAULTED every word, legal or not, is refused: no register changes, the response is PRED = 0 with STATUS
unchanged; and only rst leaves FAULTED (41_engine.md R132). -/
def Obligations.FaultedRefusesEveryCommand : Prop :=
  (∀ (s : State) (w : CmdWord) (c : CfgRecord) (rest : List Input),
    s.inputs = .command w c :: rest → s.opState = .faulted →
    step s = .next { s with inputs := rest, cfgPort := c, resp := some (respWord false (status s)) }) ∧
  ∀ s t : State, s.opState = .faulted → step s = .next t → t.opState ≠ .faulted →
    ∃ rest, s.inputs = .rst :: rest

/-- rst, in any STATE, returns every register to its reset value and discards the scheme state
(70_reset_and_hazards.md R290). That the resp port then shows no response and that the cfg port keeps its record are
the model's choices (log entries 4 and 3). -/
def Obligations.RstClearsEveryRegister : Prop :=
  ∀ (s : State) (rest : List Input), s.inputs = .rst :: rest →
    step s = .next
      { params := s.params, opState := .unconfigured, cfg0 := 0#32, cfg1 := 0#32, cfg2 := 0#32, cfg3 := 0#32,
        cfg4 := 0#32, fcode := .noFault, fdetail := .noDetail, fcmd := 0#64, pendPc := 0#32, scheme := none,
        cfgPort := s.cfgPort, inputs := rest, resp := none }

/-- Power-on equals an assertion of rst, and STATUS then reads 0 (70_reset_and_hazards.md R291; 10_state.md R46). The
last clause also says that rst leaves no response on resp, keeps the record on cfg, and keeps the presentations and the
parameters: those are the model's choices (log entries 4, 3, 1 and 2). -/
def Obligations.PowerOnEqualsRst : Prop :=
  State.reset.opState = .unconfigured ∧ status State.reset = 0x00000000#32 ∧
  State.reset.cfg0 = 0#32 ∧ State.reset.cfg1 = 0#32 ∧ State.reset.cfg2 = 0#32 ∧ State.reset.cfg3 = 0#32 ∧
  State.reset.cfg4 = 0#32 ∧ State.reset.fcmd = 0#64 ∧ State.reset.pendPc = 0#32 ∧ State.reset.scheme = none ∧
  ∀ (s : State) (rest : List Input), s.inputs = .rst :: rest →
    step s = .next { State.reset with params := s.params, cfgPort := s.cfgPort, inputs := rest }

/-- With nothing presented the block holds its state unchanged (60_exceptions.md R286). That this is a step of the
model is its own choice (log entry 1). -/
def Obligations.IdleBlockHoldsItsState : Prop :=
  ∀ s : State, s.inputs = [] → step s = .next s

/-- The fields of STATUS, its reset value, that every command's response returns it (10_state.md R28), and the numbers
its fields show: STATE by the table of 10_state.md R23, FCODE by that of 60_exceptions.md R251, FDETAIL by that of
60_exceptions.md R252. -/
def Obligations.StatusShowsStateAndFault : Prop :=
  (∀ s : State, (status s).extractLsb' 0 2 = s.opState.bits ∧ (status s).extractLsb' 2 6 = 0#6 ∧
    (status s).extractLsb' 8 8 = s.fcode.bits ∧ (status s).extractLsb' 16 8 = s.fdetail.bits ∧
    (status s).extractLsb' 24 8 = 0#8) ∧
  status State.reset = 0x00000000#32 ∧
  (∀ s : State,
    (status s).extractLsb' 0 2 =
      (match s.opState with | .unconfigured => 0#2 | .ready => 1#2 | .pending => 2#2 | .faulted => 3#2) ∧
    (status s).extractLsb' 8 8 =
      (match s.fcode with
        | .noFault => 0x00#8 | .configError => 0x01#8 | .illegalCommand => 0x02#8 | .notConfigured => 0x03#8
        | .reinit => 0x04#8 | .predictWhilePending => 0x05#8 | .trainWithoutPredict => 0x06#8
        | .trainPcMismatch => 0x07#8) ∧
    (status s).extractLsb' 16 8 =
      (match s.fdetail with
        | .noDetail => 0x00#8 | .schemeUnrecognized => 0x01#8 | .cfg0Reserved => 0x02#8 | .hRange => 0x03#8
        | .lRange => 0x04#8 | .pRange => 0x05#8 | .eRange => 0x06#8 | .kRange => 0x07#8 | .wRange => 0x08#8)) ∧
  ∀ (s t : State) (w : CmdWord) (c : CfgRecord) (rest : List Input),
    s.inputs = .command w c :: rest → step s = .next t →
    ∃ r, t.resp = some r ∧ r.extractLsb' 1 32 = status t

/-- Every command answers one response: STATUS after the command, and in bit [0] the prediction for a PREDICT that
completes and 0 for every other command; STATUS.STATE in it is 3 exactly in FAULTED (30_encoding.md R90). -/
def Obligations.EveryCommandAnswersOneResponse : Prop :=
  ∀ (s t : State) (w : CmdWord) (c : CfgRecord) (rest : List Input),
    s.inputs = .command w c :: rest → step s = .next t →
    ∃ r, t.resp = some r ∧ r.extractLsb' 1 32 = status t ∧ (r.extractLsb' 1 2 = 3#2 ↔ t.opState = .faulted) ∧
      (∀ pc, decode w = some (.predict pc) → s.opState = .ready →
        ∃ x, schemePredict s pc = some (r.getLsbD 0, x)) ∧
      ((∀ pc, decode w ≠ some (.predict pc)) ∨ s.opState ≠ .ready → r.getLsbD 0 = false)

/-! ### INIT (41_engine.md R133, R134) -/

/-- INIT in UNCONFIGURED: the first row of the FDETAIL table that applies is the detail of CONFIG_ERROR, and where no
row applies INIT succeeds (60_exceptions.md R252, R255). -/
def Obligations.InitReportsTheFirstFailingCheck : Prop :=
  ∀ s : State, s.opState = .unconfigured →
    (∀ d, ConfigFault s.params s.cfgPort d →
      (∀ d', ConfigFault s.params s.cfgPort d' → d.bits.toNat ≤ d'.bits.toNat) →
      exec .init s = .next
        { s with
          opState := .faulted, fcode := .configError, fdetail := d, fcmd := 0x0000000000000001#64,
          resp := some (respWord false (statusWord .faulted .configError d)) }) ∧
    ((∀ d, ¬ConfigFault s.params s.cfgPort d) → ∃ t, exec .init s = .next t ∧ t.opState = .ready)

/-- INIT in READY or PENDING takes REINIT, whatever the record (60_exceptions.md R251, R255). -/
def Obligations.SecondInitTakesReinit : Prop :=
  ∀ s : State, s.opState = .ready ∨ s.opState = .pending →
    exec .init s = .next
      { s with
        opState := .faulted, fcode := .reinit, fdetail := .noDetail, fcmd := 0x0000000000000001#64,
        resp := some (respWord false (statusWord .faulted .reinit .noDetail)) }

/-- INIT on a legal record completes: it latches CFG0 to CFG4, creates the chosen scheme's state with every cell at
its initial value, clears PEND_PC, moves to READY, and changes nothing else (41_engine.md R133, R134). -/
def Obligations.InitCreatesTheSchemeState : Prop :=
  ∀ s : State, s.opState = .unconfigured → (∀ d, ¬ConfigFault s.params s.cfgPort d) →
    ∃ x,
      exec .init s = .next
        { s with
          cfg0 := s.cfgPort.extractLsb' 0 32, cfg1 := s.cfgPort.extractLsb' 32 32,
          cfg2 := s.cfgPort.extractLsb' 64 32, cfg3 := s.cfgPort.extractLsb' 96 32,
          cfg4 := s.cfgPort.extractLsb' 128 32, scheme := some x, pendPc := 0#32, opState := .ready,
          resp := some (respWord false (statusWord .ready s.fcode s.fdetail)) } ∧
      (cfgSchemeCode (s.cfgPort.extractLsb' 0 32) = 0#3 → x = .static) ∧
      (cfgSchemeCode (s.cfgPort.extractLsb' 0 32) = 1#3 → ∃ g, x = .gshare g ∧ g.ghr = 0 ∧
        ∀ i, g.pht.read i = if i < 2 ^ cfgH (s.cfgPort.extractLsb' 0 32) then some s.params.ctrInit else none) ∧
      (cfgSchemeCode (s.cfgPort.extractLsb' 0 32) = 2#3 → ∃ t, x = .tournament t ∧ t.ghr = 0 ∧
        (∀ i, t.gpht.read i = if i < 2 ^ cfgH (s.cfgPort.extractLsb' 0 32) then some s.params.ctrInit else none) ∧
        (∀ i, t.chooser.read i =
          if i < 2 ^ cfgH (s.cfgPort.extractLsb' 0 32) then some s.params.chooserInit else none) ∧
        (∀ i, t.lht.read i = if i < 2 ^ cfgP (s.cfgPort.extractLsb' 0 32) then some 0 else none) ∧
        ∀ i, t.lpht.read i = if i < 2 ^ cfgL (s.cfgPort.extractLsb' 0 32) then some s.params.ctrInit else none) ∧
      (cfgSchemeCode (s.cfgPort.extractLsb' 0 32) = 3#3 → ∃ q, x = .perceptron q ∧
        q.phr.length = (s.cfgPort.extractLsb' 64 32).toNat ∧ (∀ b ∈ q.phr, b = false) ∧
        (∀ r, r < (s.cfgPort.extractLsb' 32 32).toNat → ∃ row, q.wt.read r = some row ∧
          row.length = (s.cfgPort.extractLsb' 64 32).toNat + 1 ∧ ∀ x ∈ row, x = 0) ∧
        (∀ r, (s.cfgPort.extractLsb' 32 32).toNat ≤ r → q.wt.read r = none) ∧
        q.lastPred = false ∧ q.lastMag = 0)

/-! ### Faults (60_exceptions.md) -/

/-- Faults are precise: a step that takes the block into FAULTED changes only FCODE, FDETAIL, FCMD and STATE of it,
FCMD being the presented word (the ports move on: the presentation is taken, its record is on cfg, its response on
resp); and a CONFIG_ERROR leaves no scheme state and CFG0 to CFG4 = 0 (60_exceptions.md R257). -/
def Obligations.FaultsArePrecise : Prop :=
  (∀ (s t : State) (w : CmdWord) (c : CfgRecord) (rest : List Input),
    s.inputs = .command w c :: rest → s.opState ≠ .faulted → step s = .next t → t.opState = .faulted →
    t = { s with
          inputs := rest, cfgPort := c, opState := .faulted, fcode := t.fcode, fdetail := t.fdetail, fcmd := w,
          resp := some (respWord false (status t)) } ∧ t.fcode ≠ .noFault) ∧
  ∀ s t : State, BlockInv s → step s = .next t → s.fcode = .noFault → t.fcode = .configError →
    t.scheme = none ∧ t.cfg0 = 0#32 ∧ t.cfg1 = 0#32 ∧ t.cfg2 = 0#32 ∧ t.cfg3 = 0#32 ∧ t.cfg4 = 0#32

/-- Only the fault entry and rst write FCODE, FDETAIL and FCMD, and once a fault is recorded only rst changes the
record (10_state.md R27, R29; 60_exceptions.md R258). -/
def Obligations.FirstFaultIsKeptUntilRst : Prop :=
  ∀ s t : State, step s = .next t → (∀ rest, s.inputs ≠ .rst :: rest) →
    (t.opState ≠ .faulted → t.fcode = s.fcode ∧ t.fdetail = s.fdetail ∧ t.fcmd = s.fcmd) ∧
    (s.opState = .faulted → t.opState = .faulted ∧ t.fcode = s.fcode ∧ t.fdetail = s.fdetail ∧ t.fcmd = s.fcmd)

/-- PREDICT outside READY: NOT_CONFIGURED before INIT, PREDICT_WHILE_PENDING after another PREDICT
(41_engine.md R137; 60_exceptions.md R251). -/
def Obligations.PredictOutOfOrderFaults : Prop :=
  ∀ (s : State) (pc : Word),
    (s.opState = .unconfigured → exec (.predict pc) s = .next
      { s with
        opState := .faulted, fcode := .notConfigured, fdetail := .noDetail, fcmd := pc ++ 2#32,
        resp := some (respWord false (statusWord .faulted .notConfigured .noDetail)) }) ∧
    (s.opState = .pending → exec (.predict pc) s = .next
      { s with
        opState := .faulted, fcode := .predictWhilePending, fdetail := .noDetail, fcmd := pc ++ 2#32,
        resp := some (respWord false (statusWord .faulted .predictWhilePending .noDetail)) })

/-- TRAIN out of order: NOT_CONFIGURED before INIT, TRAIN_WITHOUT_PREDICT in READY, TRAIN_PC_MISMATCH for another pc
than the predicted one (41_engine.md R140; 60_exceptions.md R251). -/
def Obligations.TrainOutOfOrderFaults : Prop :=
  ∀ (s : State) (pc : Word) (o : Bool),
    (s.opState = .unconfigured → exec (.train pc o) s = .next
      { s with
        opState := .faulted, fcode := .notConfigured, fdetail := .noDetail,
        fcmd := pc ++ (if o then 11#32 else 3#32),
        resp := some (respWord false (statusWord .faulted .notConfigured .noDetail)) }) ∧
    (s.opState = .ready → exec (.train pc o) s = .next
      { s with
        opState := .faulted, fcode := .trainWithoutPredict, fdetail := .noDetail,
        fcmd := pc ++ (if o then 11#32 else 3#32),
        resp := some (respWord false (statusWord .faulted .trainWithoutPredict .noDetail)) }) ∧
    (s.opState = .pending → pc ≠ s.pendPc → exec (.train pc o) s = .next
      { s with
        opState := .faulted, fcode := .trainPcMismatch, fdetail := .noDetail,
        fcmd := pc ++ (if o then 11#32 else 3#32),
        resp := some (respWord false (statusWord .faulted .trainPcMismatch .noDetail)) })

/-! ### PREDICT (41_engine.md R137), scheme by scheme -/

/-- Static PREDICT completes and answers TAKEN for every pc (41_engine.md R142). -/
def Obligations.StaticPredictsTaken : Prop :=
  ∀ (s : State) (pc : Word), s.opState = .ready → s.activeScheme = some .static →
    exec (.predict pc) s = .next
      { s with
        pendPc := pc, opState := .pending, resp := some (respWord true (statusWord .pending s.fcode s.fdetail)) }

/-- GShare PREDICT completes with the prediction of the counter at `(GHR ^ pc) & mask(H)` and writes only PEND_PC and
STATE (42_gshare.md R160, R161; 40_counter_history.md R112). -/
def Obligations.GSharePredictsByTheIndexedCounter : Prop :=
  ∀ (s : State) (g : GShare) (pc : Word),
    s.opState = .ready → s.activeScheme = some .gshare → s.scheme = some (.gshare g) →
    g.pht.size = 2 ^ s.histBits →
    ∃ v, g.pht.read ((g.ghr ^^^ pc.toNat) &&& (2 ^ s.histBits - 1)) = some v ∧
      exec (.predict pc) s = .next
        { s with
          pendPc := pc, opState := .pending,
          resp := some (respWord (decide (2 ≤ v.toNat)) (statusWord .pending s.fcode s.fdetail)) }

/-- Tournament PREDICT completes: the chooser at the raw GHR selects the global counter (raw GHR, or XOR mode) or the
local counter of the pc's own history, and only PEND_PC and STATE are written (43_tournament.md R181 to R184). -/
def Obligations.TournamentPredictsByTheChosenCounter : Prop :=
  ∀ (s : State) (t : Tournament) (pc : Word),
    s.opState = .ready → s.activeScheme = some .tournament → s.scheme = some (.tournament t) →
    TournamentOk s.histBits s.localBits s.pcBits t →
    ∃ c gv lh lv, t.chooser.read t.ghr = some c ∧
      t.gpht.read (if s.cfg0.getLsbD 18 then (t.ghr ^^^ pc.toNat) &&& (2 ^ s.histBits - 1) else t.ghr) = some gv ∧
      t.lht.read (pc.toNat &&& (2 ^ s.pcBits - 1)) = some lh ∧ t.lpht.read lh = some lv ∧
      exec (.predict pc) s = .next
        { s with
          pendPc := pc, opState := .pending,
          resp := some (respWord (if c.toNat ≤ 1 then decide (2 ≤ gv.toNat) else decide (2 ≤ lv.toNat))
            (statusWord .pending s.fcode s.fdetail)) }

/-- Perceptron PREDICT completes: y is the sum by index over the row that the hash selects, the prediction is
TAKEN iff y ≥ 0, and LAST_PRED and LAST_MAG latch it (44_perceptron.md R210 to R212). -/
def Obligations.PerceptronPredictsByTheWeightedSum : Prop :=
  ∀ (s : State) (q : Perceptron) (pc : Word),
    s.opState = .ready → s.activeScheme = some .custom → s.scheme = some (.perceptron q) →
    1 ≤ s.percRows → PerceptronOk s.percRows s.percHist s.percClamp q →
    ∃ row,
      q.wt.read (if s.cfg0.getLsbD 19 then Config.foldHash s.percRows pc q.phr % s.percRows
        else pc.toNat % s.percRows) = some row ∧
      exec (.predict pc) s = .next
        { s with
          scheme := some (.perceptron { q with
            lastPred := decide (0 ≤ indexedSum s.percHist q.phr row),
            lastMag := (indexedSum s.percHist q.phr row).natAbs }),
          pendPc := pc, opState := .pending,
          resp := some (respWord (decide (0 ≤ indexedSum s.percHist q.phr row))
            (statusWord .pending s.fcode s.fdetail)) }

/-! ### TRAIN (41_engine.md R140), scheme by scheme -/

/-- Static TRAIN completes with no effect but STATE (41_engine.md R143). -/
def Obligations.StaticTrainChangesOnlyState : Prop :=
  ∀ (s : State) (o : Bool), s.opState = .pending → s.activeScheme = some .static →
    exec (.train s.pendPc o) s = .next
      { s with opState := .ready, resp := some (respWord false (statusWord .ready s.fcode s.fdetail)) }

/-- GShare TRAIN completes: the counter at the index of the pre-update GHR moves one step, every other entry reads as
before, and GHR shifts the outcome in (42_gshare.md R162). -/
def Obligations.GShareTrainsTheIndexedCounter : Prop :=
  ∀ (s : State) (g : GShare) (o : Bool),
    s.opState = .pending → s.activeScheme = some .gshare → s.scheme = some (.gshare g) →
    GShareOk s.histBits g →
    ∃ v g', g.pht.read ((g.ghr ^^^ s.pendPc.toNat) &&& (2 ^ s.histBits - 1)) = some v ∧
      exec (.train s.pendPc o) s = .next
        { s with
          scheme := some (.gshare g'), opState := .ready,
          resp := some (respWord false (statusWord .ready s.fcode s.fdetail)) } ∧
      g'.ghr = (2 * g.ghr + (if o then 1 else 0)) % 2 ^ s.histBits ∧
      ∀ j, g'.pht.read j =
        if j = (g.ghr ^^^ s.pendPc.toNat) &&& (2 ^ s.histBits - 1) then some (ctrTrain v o) else g.pht.read j

/-- Tournament TRAIN completes: chooser on disagreement only and toward the right side, global counter, global
history, local counter, the pc's local history, all from the pre-update state; every other entry reads as before
(43_tournament.md R185, R186). -/
def Obligations.TournamentTrainsFromThePreState : Prop :=
  ∀ (s : State) (t : Tournament) (o : Bool),
    s.opState = .pending → s.activeScheme = some .tournament → s.scheme = some (.tournament t) →
    TournamentOk s.histBits s.localBits s.pcBits t →
    ∃ cv gv lh lv t', t.chooser.read t.ghr = some cv ∧
      t.gpht.read (tgidx s.histBits (cfgTourXor s.cfg0) t.ghr s.pendPc) = some gv ∧
      t.lht.read (lslot s.pcBits s.pendPc) = some lh ∧ t.lpht.read lh = some lv ∧
      exec (.train s.pendPc o) s = .next
        { s with
          scheme := some (.tournament t'), opState := .ready,
          resp := some (respWord false (statusWord .ready s.fcode s.fdetail)) } ∧
      (∀ j, t'.chooser.read j =
        if j = t.ghr ∧ ctrPredict gv ≠ ctrPredict lv then some (ctrTrain cv (ctrPredict lv == o))
        else t.chooser.read j) ∧
      (∀ j, t'.gpht.read j =
        if j = tgidx s.histBits (cfgTourXor s.cfg0) t.ghr s.pendPc then some (ctrTrain gv o) else t.gpht.read j) ∧
      t'.ghr = (2 * t.ghr + (if o then 1 else 0)) % 2 ^ s.histBits ∧
      (∀ j, t'.lpht.read j = if j = lh then some (ctrTrain lv o) else t.lpht.read j) ∧
      ∀ j, t'.lht.read j =
        if j = lslot s.pcBits s.pendPc then some ((2 * lh + (if o then 1 else 0)) % 2 ^ s.localBits)
        else t.lht.read j

/-- Perceptron TRAIN completes: when LAST_MAG ≤ THETA or LAST_PRED was wrong, every weight of the pre-update row moves
by one toward the outcome and is clamped, weight i by whether `h[K-i]` agrees; every other row reads as before; PHR
always shifts; the latches stay (44_perceptron.md R214 to R217). -/
def Obligations.PerceptronTrainsTheSelectedRow : Prop :=
  ∀ (s : State) (q : Perceptron) (o : Bool),
    s.opState = .pending → s.activeScheme = some .custom → s.scheme = some (.perceptron q) →
    1 ≤ s.percRows → 1 ≤ s.percHist → PerceptronOk s.percRows s.percHist s.percClamp q →
    ∃ row q', q.wt.read (prow s.percRows (cfgPercHash s.cfg0) q.phr s.pendPc) = some row ∧
      exec (.train s.pendPc o) s = .next
        { s with
          scheme := some (.perceptron q'), opState := .ready,
          resp := some (respWord false (statusWord .ready s.fcode s.fdetail)) } ∧
      q'.lastPred = q.lastPred ∧ q'.lastMag = q.lastMag ∧ q'.phr.length = s.percHist ∧
      q'.phr.getD (s.percHist - 1) false = o ∧
      (∀ j, j + 1 < s.percHist → q'.phr.getD j false = q.phr.getD (j + 1) false) ∧
      (q.lastMag ≤ s.percTheta ∨ q.lastPred ≠ o →
        (∃ row', q'.wt.read (prow s.percRows (cfgPercHash s.cfg0) q.phr s.pendPc) = some row' ∧
          row'.length = s.percHist + 1 ∧
          row'.getD 0 0 =
            clamp (row.getD 0 0 + (if o then 1 else -1)) (-(s.percClamp : Int)) ((s.percClamp : Int) - 1) ∧
          ∀ i, 1 ≤ i → i ≤ s.percHist → row'.getD i 0 =
            clamp (row.getD i 0 + (if q.phr.getD (s.percHist - i) false = o then 1 else -1))
              (-(s.percClamp : Int)) ((s.percClamp : Int) - 1)) ∧
        ∀ r, r ≠ prow s.percRows (cfgPercHash s.cfg0) q.phr s.pendPc → q'.wt.read r = q.wt.read r) ∧
      (s.percTheta < q.lastMag → q.lastPred = o → q'.wt = q.wt)

/-! ### Frames (10_state.md R45) -/

/-- What a PREDICT that completes leaves unchanged: every register but PEND_PC and STATE, and every entry of every
table and every history bit; the perceptron's two latches are the only scheme state it writes
(10_state.md R45; 41_engine.md R136, R137). -/
def Obligations.PredictWritesNoTableOrHistory : Prop :=
  ∀ (s t : State) (pc : Word), s.opState = .ready → exec (.predict pc) s = .next t →
    t.params = s.params ∧ t.cfg0 = s.cfg0 ∧ t.cfg1 = s.cfg1 ∧ t.cfg2 = s.cfg2 ∧ t.cfg3 = s.cfg3 ∧ t.cfg4 = s.cfg4 ∧
    t.fcode = s.fcode ∧ t.fdetail = s.fdetail ∧ t.fcmd = s.fcmd ∧ t.cfgPort = s.cfgPort ∧ t.inputs = s.inputs ∧
    t.pendPc = pc ∧ t.opState = .pending ∧
    (s.activeScheme ≠ some .custom → t.scheme = s.scheme) ∧
    (s.activeScheme = some .custom → ∃ q q', s.scheme = some (.perceptron q) ∧ t.scheme = some (.perceptron q') ∧
      q'.phr = q.phr ∧ ∀ r, q'.wt.read r = q.wt.read r)

/-- What a TRAIN that completes leaves unchanged: every register but STATE, and every table entry but those at the
indices of the pre-update state (10_state.md R45; 41_engine.md R140). -/
def Obligations.TrainWritesOnlyTheIndexedEntries : Prop :=
  ∀ (s t : State) (o : Bool), s.opState = .pending → exec (.train s.pendPc o) s = .next t →
    t.params = s.params ∧ t.cfg0 = s.cfg0 ∧ t.cfg1 = s.cfg1 ∧ t.cfg2 = s.cfg2 ∧ t.cfg3 = s.cfg3 ∧ t.cfg4 = s.cfg4 ∧
    t.fcode = s.fcode ∧ t.fdetail = s.fdetail ∧ t.fcmd = s.fcmd ∧ t.cfgPort = s.cfgPort ∧ t.inputs = s.inputs ∧
    t.pendPc = s.pendPc ∧ t.opState = .ready ∧
    (s.activeScheme = some .static → t.scheme = s.scheme) ∧
    (s.activeScheme = some .gshare → ∃ g g', s.scheme = some (.gshare g) ∧ t.scheme = some (.gshare g') ∧
      ∀ j, j ≠ gidx s.histBits g.ghr s.pendPc → g'.pht.read j = g.pht.read j) ∧
    (s.activeScheme = some .tournament → ∃ u u', s.scheme = some (.tournament u) ∧ t.scheme = some (.tournament u') ∧
      (∀ j, j ≠ u.ghr → u'.chooser.read j = u.chooser.read j) ∧
      (∀ j, j ≠ tgidx s.histBits (cfgTourXor s.cfg0) u.ghr s.pendPc → u'.gpht.read j = u.gpht.read j) ∧
      (∀ j, j ≠ lslot s.pcBits s.pendPc → u'.lht.read j = u.lht.read j) ∧
      ∀ j, j ≠ u.lht.entry (lslot s.pcBits s.pendPc) → u'.lpht.read j = u.lpht.read j) ∧
    (s.activeScheme = some .custom → ∃ q q', s.scheme = some (.perceptron q) ∧ t.scheme = some (.perceptron q') ∧
      q'.lastPred = q.lastPred ∧ q'.lastMag = q.lastMag ∧
      ∀ r, r ≠ prow s.percRows (cfgPercHash s.cfg0) q.phr s.pendPc → q'.wt.read r = q.wt.read r)

/-- Which commands write what (10_state.md R45), by the presented word and what it decodes to: a step that is no rst
writes CFG0 to CFG4 only for an INIT that completes, PEND_PC only for an INIT or a PREDICT that completes, the scheme
state only for an INIT, a TRAIN or the perceptron's PREDICT that completes; and no step writes the elaboration
parameters (00_scope.md R9). -/
def Obligations.OnlyTheNamedCommandsWriteEachState : Prop :=
  ∀ s t : State, step s = .next t → t.params = s.params ∧ ((∀ rest, s.inputs ≠ .rst :: rest) →
    (t.cfgRecord ≠ s.cfgRecord → ∃ w c rest, s.inputs = .command w c :: rest ∧
      decode w = some .init ∧ s.opState = .unconfigured ∧ t.opState = .ready) ∧
    (t.pendPc ≠ s.pendPc → ∃ w c rest, s.inputs = .command w c :: rest ∧
      ((decode w = some .init ∧ s.opState = .unconfigured ∧ t.opState = .ready) ∨
       (decode w = some (.predict t.pendPc) ∧ s.opState = .ready ∧ t.opState = .pending))) ∧
    (t.scheme ≠ s.scheme → ∃ w c rest, s.inputs = .command w c :: rest ∧
      ((decode w = some .init ∧ s.opState = .unconfigured ∧ t.opState = .ready) ∨
       ((∃ o, decode w = some (.train s.pendPc o)) ∧ s.opState = .pending ∧ t.opState = .ready) ∨
       ((∃ pc, decode w = some (.predict pc)) ∧ s.opState = .ready ∧ t.opState = .pending ∧
         s.activeScheme = some .custom))))

/-- STATE is left only as the mode table says: rst enters UNCONFIGURED; INIT takes UNCONFIGURED to READY, PREDICT
READY to PENDING, TRAIN of the pending pc PENDING to READY; a fault enters FAULTED (60_exceptions.md R270;
10_state.md R23). -/
def Obligations.StateMovesAsTheModeTableSays : Prop :=
  ∀ s t : State, step s = .next t → t.opState ≠ s.opState →
    (∃ rest, s.inputs = .rst :: rest ∧ t.opState = .unconfigured) ∨
    ∃ w c rest, s.inputs = .command w c :: rest ∧
      ((s.opState = .unconfigured ∧ t.opState = .ready ∧ decode w = some .init) ∨
       (s.opState = .ready ∧ t.opState = .pending ∧ ∃ pc, decode w = some (.predict pc)) ∨
       (s.opState = .pending ∧ t.opState = .ready ∧ ∃ o, decode w = some (.train s.pendPc o)) ∨
       (s.opState ≠ .faulted ∧ t.opState = .faulted))

/-- Fields that the active scheme ignores are never read, nor is the cfg port by PREDICT and TRAIN: changing them
changes no PREDICT and no TRAIN (10_state.md R25, R26; 30_encoding.md R85, R86). -/
def Obligations.UnusedConfigurationIsNeverRead : Prop :=
  ∀ (s t : State) (c0 c1 c2 c3 c4 : Word) (c : CfgRecord) (i : Instr), i ≠ .init →
    cfgSchemeCode c0 = cfgSchemeCode s.cfg0 →
    (s.activeScheme = some .gshare → cfgH c0 = cfgH s.cfg0) →
    (s.activeScheme = some .tournament → cfgH c0 = cfgH s.cfg0 ∧ cfgL c0 = cfgL s.cfg0 ∧ cfgP c0 = cfgP s.cfg0 ∧
      cfgTourXor c0 = cfgTourXor s.cfg0) →
    (s.activeScheme = some .custom →
      cfgPercHash c0 = cfgPercHash s.cfg0 ∧ c1 = s.cfg1 ∧ c2 = s.cfg2 ∧ c3 = s.cfg3 ∧ c4 = s.cfg4) →
    exec i s = .next t →
    exec i { s with cfg0 := c0, cfg1 := c1, cfg2 := c2, cfg3 := c3, cfg4 := c4, cfgPort := c } =
      .next { t with cfg0 := c0, cfg1 := c1, cfg2 := c2, cfg3 := c3, cfg4 := c4, cfgPort := c }

/-! ### Counters, histories, indices and sums -/

/-- The truth table of the counter (40_counter_history.md R114). -/
def Obligations.CounterTruthTable : Prop :=
  ctrPredict 0#2 = false ∧ ctrTrain 0#2 true = 1#2 ∧ ctrTrain 0#2 false = 0#2 ∧
  ctrPredict 1#2 = false ∧ ctrTrain 1#2 true = 2#2 ∧ ctrTrain 1#2 false = 0#2 ∧
  ctrPredict 2#2 = true ∧ ctrTrain 2#2 true = 3#2 ∧ ctrTrain 2#2 false = 1#2 ∧
  ctrPredict 3#2 = true ∧ ctrTrain 3#2 true = 3#2 ∧ ctrTrain 3#2 false = 2#2

/-- Saturation: 3 trainings reach the bound and every further one keeps it, and ctr_predict flips after exactly
2 - v TAKEN trainings from v ≤ 1 and after exactly v - 1 NOT-TAKEN trainings from v ≥ 2 (40_counter_history.md R115). -/
def Obligations.CounterSaturates : Prop :=
  ∀ (v : Counter) (n : Nat),
    (3 ≤ n → (fun x => ctrTrain x true)^[n] v = 3#2 ∧ (fun x => ctrTrain x false)^[n] v = 0#2) ∧
    (v.toNat ≤ 1 → (ctrPredict ((fun x => ctrTrain x true)^[n] v) = true ↔ 2 - v.toNat ≤ n)) ∧
    (2 ≤ v.toNat → (ctrPredict ((fun x => ctrTrain x false)^[n] v) = false ↔ v.toNat - 1 ≤ n))

/-- After outcomes o_1 .. o_m from h = 0, bit i of an n-bit integer history is o_{m-i} when there is one, else 0
(40_counter_history.md R118). -/
def Obligations.IntegerHistoryHoldsRecentOutcomes : Prop :=
  ∀ (n : Nat) (os : List Bool) (i : Nat), i < n →
    (os.foldl (fun h o => histShift h o n) 0).testBit i =
      if i < os.length then os.getD (os.length - 1 - i) false else false

/-- hist_shift keeps a history inside its n bits, puts the outcome in bit 0, moves every other bit up and drops the
oldest (40_counter_history.md R117). -/
def Obligations.HistShiftKeepsTheWidth : Prop :=
  ∀ (h : Nat) (o : Bool) (n : Nat), 1 ≤ n → h < 2 ^ n →
    histShift h o n < 2 ^ n ∧ (histShift h o n).testBit 0 = o ∧
    (∀ i, i + 1 < n → (histShift h o n).testBit (i + 1) = h.testBit i) ∧
    (n = 1 → histShift h o n = if o then 1 else 0)

/-- After m outcomes from all zeros, `h[j]` of a K-bit vector history is o_{m-K+1+j} when that index is at least 1,
and 0 otherwise (44_perceptron.md R217). -/
def Obligations.VectorHistoryHoldsRecentOutcomes : Prop :=
  ∀ (k : Nat) (os : List Bool) (j : Nat), j < k →
    (os.foldl percShift (List.replicate k false)).length = k ∧
    (os.foldl percShift (List.replicate k false)).getD j false =
      if k ≤ os.length + j then os.getD (os.length + j - k) false else false

/-- Only the low H bits of the pc take part in the gshare index, which lies in the table (42_gshare.md R163, R164). -/
def Obligations.GShareIndexUsesTheLowPcBits : Prop :=
  ∀ (h ghr : Nat) (pc : Word), ghr < 2 ^ h →
    gidx h ghr pc = ghr ^^^ (pc.toNat % 2 ^ h) ∧ gidx h ghr pc ≤ 2 ^ h - 1

/-- The chooser changes only on a disagreement of the sub-predictions, and then by one step toward the side that was
right, saturating at 3 and at 0 (43_tournament.md R187, R186). -/
def Obligations.ChooserChangesOnlyOnDisagreement : Prop :=
  (∀ (h l p : Nat) (x : Bool) (t t' : Tournament) (pc : Word) (o gp lp : Bool), TournamentOk h l p t →
    tourTrain h l p x t pc o = some t' → globalPred h x t pc = some gp → localPred p t pc = some lp →
    (gp = lp → t'.chooser = t.chooser) ∧
    (∀ j, t'.chooser.read j ≠ t.chooser.read j → gp ≠ lp ∧ j = t.ghr) ∧
    (gp ≠ lp → ∀ v, t.chooser.read t.ghr = some v →
      t'.chooser.read t.ghr = some (ctrTrain v (lp == o)) ∧
      (v = 3#2 → lp = o → t'.chooser.read t.ghr = some 3#2) ∧
      (v = 0#2 → gp = o → t'.chooser.read t.ghr = some 0#2))) ∧
  ∀ (s s' : State) (pc : Word) (t : Tournament), s.scheme = some (.tournament t) →
    exec (.predict pc) s = .next s' → ∃ t', s'.scheme = some (.tournament t') ∧ t'.chooser = t.chooser

/-- The weighted sum is exact and obeys -(K+1)W ≤ y ≤ KW + W - 1, so |y| ≤ (K+1)W (44_perceptron.md R211, R213). -/
def Obligations.WeightedSumStaysInRange : Prop :=
  ∀ (k w : Nat) (phr : List Bool) (row : List Int) (y : Int), RowOk k w row → percSum k phr row = some y →
    y = indexedSum k phr row ∧ -(((k : Int) + 1) * w) ≤ y ∧ y ≤ (k : Int) * w + w - 1 ∧ y.natAbs ≤ (k + 1) * w

/-- Every weight stays in [-W, W-1] under training, and a training moves it by at most one (44_perceptron.md R216). -/
def Obligations.TrainedWeightsStayClamped : Prop :=
  ∀ (k w : Nat) (phr : List Bool) (o : Bool) (row : List Int), 1 ≤ w → phr.length = k → RowOk k w row →
    RowOk k w (trainRow w phr o row) ∧
    ∀ i, i ≤ k → ((trainRow w phr o row).getD i 0 - row.getD i 0).natAbs ≤ 1

/-- WBITS is the least n ≥ 1 with 2^(n-1) ≥ W, and WBITS-bit two's complement holds every weight (10_state.md R40). -/
def Obligations.WeightsFitTheirStorage : Prop :=
  ∀ w : Nat, 1 ≤ w →
    (1 ≤ weightBits w ∧ w ≤ 2 ^ (weightBits w - 1) ∧ ∀ n, 1 ≤ n → w ≤ 2 ^ (n - 1) → weightBits w ≤ n) ∧
    ∀ x : Int, -(w : Int) ≤ x → x ≤ (w : Int) - 1 → (BitVec.ofInt (weightBits w) x).toInt = x

/-- THETA = 0 trains exactly on a wrong prediction or y = 0; a THETA of at least (K+1)W trains always
(44_perceptron.md R219, R220). -/
def Obligations.ThresholdCornerCases : Prop :=
  ∀ (e k w : Nat) (q : Perceptron) (o : Bool), PerceptronOk e k w q →
    (trainNow 0 q o = true ↔ q.lastPred ≠ o ∨ q.lastMag = 0) ∧
    (∀ theta, (k + 1) * w ≤ theta → trainNow theta q o = true) ∧
    (∀ theta, q.lastMag = 0 → trainNow theta q o = true)

/-! ### Tables (20_memory.md R62) -/

/-- On a table of any entry type (counters, local histories, weight rows), a write in range is read back, every other
entry reads as before, the canonical form is kept, and an access out of range is INDEX_RANGE (20_memory.md R62). -/
def Obligations.TableReadsAfterWrite : Prop :=
  ∀ (α : Type) [DecidableEq α] (t : Table α) (i : Nat) (v : α), t.wf →
    (i < t.size → ∃ t', t.write i v = some t' ∧ t'.wf ∧ t'.size = t.size ∧ t'.read i = some v ∧
      ∀ j, j ≠ i → t'.read j = t.read j) ∧
    (t.size ≤ i → t.read i = none ∧ t.write i v = none)

/-- Tables of any entry type, in canonical form, that read the same at every index, and were filled alike, are equal
data. This is a property of the model's own representation of a table (log entry 7). -/
def Obligations.EqualReadsAreEqualTables : Prop :=
  ∀ (α : Type) (t u : Table α), t.wf → u.wf → t.size = u.size → t.fill = u.fill → (∀ i, t.read i = u.read i) → t = u

/-! ### Invariants and runs -/

/-- The state after reset keeps the invariant (10_state.md R44, R46). -/
def Obligations.ResetKeepsTheInvariant : Prop := BlockInv State.reset

/-- Every step keeps the invariant (10_state.md R44). -/
def Obligations.StepKeepsTheInvariant : Prop :=
  ∀ s t : State, BlockInv s → step s = .next t → BlockInv t

/-- From every state that keeps the invariant a step has a next state: no table access is out of range, no command is
without a meaning, whatever the driver presents (10_state.md R44; 20_memory.md R62; 60_exceptions.md R254). -/
def Obligations.NoReachableStepStops : Prop :=
  ∀ s : State, BlockInv s → ∃ t, step s = .next t

/-- In every state that keeps the invariant, a command given in order completes with its own effect: INIT on a legal
record in UNCONFIGURED, PREDICT in READY, TRAIN of the pending pc in PENDING, each under every scheme
(41_engine.md R131, R133, R137, R140). -/
def Obligations.CommandsInOrderComplete : Prop :=
  ∀ s : State, BlockInv s →
    (s.opState = .unconfigured → (∀ d, ¬ConfigFault s.params s.cfgPort d) →
      ∃ t, exec .init s = .next t ∧ t.opState = .ready ∧ t.cfgRecord = s.cfgPort ∧ t.pendPc = 0#32 ∧
        t.fcode = .noFault) ∧
    (s.opState = .ready → ∀ pc, ∃ t x p, exec (.predict pc) s = .next t ∧ schemePredict s pc = some (p, some x) ∧
      t.opState = .pending ∧ t.pendPc = pc ∧ t.scheme = some x ∧ t.resp.map respPred = some p ∧ t.fcode = .noFault) ∧
    (s.opState = .pending → ∀ o, ∃ t x, exec (.train s.pendPc o) s = .next t ∧
      schemeTrain s s.pendPc o = some (some x) ∧ t.opState = .ready ∧ t.pendPc = s.pendPc ∧ t.scheme = some x ∧
      t.resp.map respPred = some false ∧ t.fcode = .noFault)

/-- From a configured block that is not faulted, a driver that keeps the protocol never sees a fault, whatever the pcs
and outcomes: after any list of branches the run is complete (41_engine.md R131; 70_reset_and_hazards.md R297,
R299). -/
def Obligations.BranchRunsComplete : Prop :=
  ∀ (s : State) (c : CfgRecord) (bs : List (Word × Bool)), BlockInv s → s.opState = .ready →
    ∃ t, run (2 * bs.length) { s with inputs := presentBranches c bs } = .next t ∧
      t.opState = .ready ∧ t.fcode = .noFault ∧ t.inputs = [] ∧ (bs ≠ [] → t.runEnd = some .complete)

/-- What TRAIN would compute again is what the PREDICT before it computed: the same prediction, and latches that
already hold it (41_engine.md R145; 43_tournament.md R190; 44_perceptron.md R223). -/
def Obligations.TrainSeesThePredictedState : Prop :=
  ∀ (s t : State) (pc : Word) (r : RespWord), BlockInv s → s.opState = .ready → exec (.predict pc) s = .next t →
    t.resp = some r → schemePredict t pc = some (respPred r, t.scheme)

/-- In every state that keeps the invariant, a pending perceptron's latches hold the prediction and the magnitude of
the sum over the pending pc's row (44_perceptron.md R223). -/
def Obligations.LatchesHoldThePendingSum : Prop :=
  ∀ (s : State) (q : Perceptron), BlockInv s → s.opState = .pending → s.scheme = some (.perceptron q) →
    ∃ row, q.wt.read (prow s.percRows (cfgPercHash s.cfg0) q.phr s.pendPc) = some row ∧
      q.lastPred = decide (0 ≤ indexedSum s.percHist q.phr row) ∧
      q.lastMag = (indexedSum s.percHist q.phr row).natAbs

/-- Two instances of one build that are reset and then given the same commands reach identical states and return
identical responses, whatever they held before (41_engine.md R144; 70_reset_and_hazards.md R290). -/
def Obligations.ResetInstancesAgree : Prop :=
  ∀ (s s' : State) (w : CmdWord) (c : CfgRecord) (rest : List Input), s.params = s'.params →
    s.inputs = .rst :: .command w c :: rest → s'.inputs = .rst :: .command w c :: rest →
    ∀ n, run (n + 2) s = run (n + 2) s'

/-- GShare convergence: after H + 2 or more BRANCH pc, o with one pc and one outcome, PREDICT pc returns that outcome
(42_gshare.md R166). -/
def Obligations.GShareConverges : Prop :=
  ∀ (s : State) (c : CfgRecord) (pc : Word) (o : Bool) (n : Nat),
    BlockInv s → s.opState = .ready → s.activeScheme = some .gshare → s.histBits + 2 ≤ n →
    ∃ t u r, run (2 * n) { s with inputs := presentBranches c (List.replicate n (pc, o)) } = .next t ∧
      exec (.predict pc) t = .next u ∧ u.resp = some r ∧ respPred r = o

/-- Tournament convergence: after max(H, L) + 2 or more BRANCH pc, o with one pc and one outcome, PREDICT pc returns
that outcome, whatever the chooser holds (43_tournament.md R191). -/
def Obligations.TournamentConverges : Prop :=
  ∀ (s : State) (c : CfgRecord) (pc : Word) (o : Bool) (n : Nat),
    BlockInv s → s.opState = .ready → s.activeScheme = some .tournament → max s.histBits s.localBits + 2 ≤ n →
    ∃ t u r, run (2 * n) { s with inputs := presentBranches c (List.replicate n (pc, o)) } = .next t ∧
      exec (.predict pc) t = .next u ∧ u.resp = some r ∧ respPred r = o
end

