-- ==== Sys2Proof/Laws/Decode.lean ====
section
/-! SUPPORT. What the decoder and the encoder do, on a word written as its high and low halves. -/

namespace Sys2Proof

/-- The word of INIT (30_encoding.md R84). -/
@[simp] theorem encode_init : encode .init = 0x0000000000000001#64 := by decide

/-- The word of PREDICT: the pc over the low word 2 (30_encoding.md R84). -/
theorem encode_predict (pc : Word) : encode (.predict pc) = pc ++ 2#32 := by
  show pc ++ 0#28 ++ BitVec.ofBool false ++ 2#3 = pc ++ 2#32
  rw [BitVec.append_assoc, BitVec.append_assoc]
  rfl

/-- The word of TRAIN: the pc over the low word 11 (TAKEN) or 3 (NOT-TAKEN) (30_encoding.md R84). -/
theorem encode_train (pc : Word) (o : Bool) : encode (.train pc o) = pc ++ (if o then 11#32 else 3#32) := by
  cases o
  · show pc ++ 0#28 ++ BitVec.ofBool false ++ 3#3 = pc ++ 3#32
    rw [BitVec.append_assoc, BitVec.append_assoc]
    rfl
  · show pc ++ 0#28 ++ BitVec.ofBool true ++ 3#3 = pc ++ 11#32
    rw [BitVec.append_assoc, BitVec.append_assoc]
    rfl

/-- Every word is its high half over its low half. -/
theorem word_halves (w : CmdWord) : w = w.extractLsb' 32 32 ++ w.extractLsb' 0 32 := by
  have h := @BitVec.extractLsb'_append_extractLsb'_eq_extractLsb' 64 32 0 32 32 w rfl
  simpa using h.symm

theorem halves_inj {a b c d : BitVec 32} : (a ++ b : BitVec 64) = c ++ d ↔ a = c ∧ b = d := by
  constructor
  · intro h
    have hh := congrArg (BitVec.extractLsb' 32 32) h
    have hl := congrArg (BitVec.extractLsb' 0 32) h
    simp only [BitVec.extractLsb'_append_eq_left, BitVec.extractLsb'_append_eq_right] at hh hl
    exact ⟨hh, hl⟩
  · rintro ⟨rfl, rfl⟩; rfl

/-- Matching a row is matching it on each half. -/
theorem matchesRow_halves (hi lo ph pl mh ml : BitVec 32) :
    matchesRow (hi ++ lo) (ph ++ pl) (mh ++ ml) = true ↔ hi &&& mh = ph ∧ lo &&& ml = pl := by
  rw [matchesRow, beq_iff_eq, BitVec.and_append]
  exact halves_inj

/-- The low half of a TRAIN word: OP and OUT, RSV 0 (30_encoding.md R83). -/
theorem train_low (lo : BitVec 32) : lo &&& 0xFFFFFFF7#32 = 3#32 ↔ lo = 3#32 ∨ lo = 11#32 := by
  constructor
  · intro h
    have split : lo = (lo &&& 0xFFFFFFF7#32) ||| (lo &&& BitVec.twoPow 32 3) := by
      rw [← BitVec.and_or_distrib_left]
      exact (BitVec.and_allOnes (x := lo)).symm
    rw [BitVec.and_twoPow, h] at split
    cases hb : lo.getLsbD 3 <;> rw [hb] at split
    · exact .inl split
    · exact .inr split
  · rintro (rfl | rfl) <;> decide

/-- The decoder by halves: the three rows of the encoding table (30_encoding.md R83). -/
theorem decode_halves (hi lo : BitVec 32) :
    decode (hi ++ lo) =
      if hi = 0#32 ∧ lo = 1#32 then some .init
      else if lo = 2#32 then some (.predict hi)
      else if lo = 3#32 then some (.train hi false)
      else if lo = 11#32 then some (.train hi true)
      else none := by
  have r1 := matchesRow_halves hi lo 0#32 1#32 0xFFFFFFFF#32 0xFFFFFFFF#32
  have r2 := matchesRow_halves hi lo 0#32 2#32 0#32 0xFFFFFFFF#32
  have r3 := matchesRow_halves hi lo 0#32 3#32 0#32 0xFFFFFFF7#32
  rw [train_low] at r3
  have ones : ∀ x : BitVec 32, x &&& 0xFFFFFFFF#32 = x := fun x => BitVec.and_allOnes
  rw [ones, ones] at r1
  rw [ones] at r2
  simp only [BitVec.and_zero, true_and] at r2 r3
  have e1 : matchesRow (hi ++ lo) 0x0000000000000001#64 0xFFFFFFFFFFFFFFFF#64 = true ↔ hi = 0#32 ∧ lo = 1#32 := r1
  have e2 : matchesRow (hi ++ lo) 0x0000000000000002#64 0x00000000FFFFFFFF#64 = true ↔ lo = 2#32 := r2
  have e3 : matchesRow (hi ++ lo) 0x0000000000000003#64 0x00000000FFFFFFF7#64 = true ↔ lo = 3#32 ∨ lo = 11#32 := r3
  have hpc : wordPc (hi ++ lo) = hi := BitVec.extractLsb'_append_eq_left
  have hout : wordOut (hi ++ lo) = lo.getLsbD 3 := by
    rw [wordOut, BitVec.getLsbD_append, if_pos (by decide)]
  simp only [decode, e1, e2, e3, hpc, hout]
  by_cases h1 : hi = 0#32 ∧ lo = 1#32
  · simp [h1]
  · simp only [h1, if_false]
    by_cases h2 : lo = 2#32
    · simp [h2]
    · simp only [h2, if_false]
      by_cases h3 : lo = 3#32
      · subst h3; rfl
      · by_cases h4 : lo = 11#32
        · subst h4; rfl
        · simp [h3, h4]

/-- Which words decode to which command, by halves (30_encoding.md R83). -/
theorem decode_halves_eq_some {hi lo : BitVec 32} {i : Instr} :
    decode (hi ++ lo) = some i ↔
      (i = .init ∧ hi = 0#32 ∧ lo = 1#32) ∨ (i = .predict hi ∧ lo = 2#32) ∨
      (i = .train hi false ∧ lo = 3#32) ∨ (i = .train hi true ∧ lo = 11#32) := by
  rw [decode_halves]
  constructor
  · intro h
    split at h
    · rename_i h1; exact .inl ⟨(Option.some.inj h).symm, h1⟩
    · split at h
      · rename_i h2; exact .inr (.inl ⟨(Option.some.inj h).symm, h2⟩)
      · split at h
        · rename_i h3; exact .inr (.inr (.inl ⟨(Option.some.inj h).symm, h3⟩))
        · split at h
          · rename_i h4; exact .inr (.inr (.inr ⟨(Option.some.inj h).symm, h4⟩))
          · cases h
  · rintro (⟨rfl, rfl, rfl⟩ | ⟨rfl, rfl⟩ | ⟨rfl, rfl⟩ | ⟨rfl, rfl⟩)
    · rfl
    · rw [if_neg (fun h => absurd h.2 (by decide)), if_pos rfl]
    · rw [if_neg (fun h => absurd h.2 (by decide)), if_neg (by decide), if_pos rfl]
    · rw [if_neg (fun h => absurd h.2 (by decide)), if_neg (by decide), if_neg (by decide), if_pos rfl]

/-- The low half of a word is `{RSV, OUT, OP}` (30_encoding.md R81). -/
theorem low_eq_fields (lo : BitVec 32) :
    lo = lo.extractLsb' 4 28 ++ BitVec.ofBool (lo.getLsbD 3) ++ lo.extractLsb' 0 3 := by
  apply BitVec.eq_of_getLsbD_eq
  intro i hi
  simp only [BitVec.getLsbD_append, BitVec.getLsbD_extractLsb', BitVec.getLsbD_ofBool]
  split
  · rename_i h; simp [h]
  · split
    · have : i = 3 := by omega
      subst this; simp
    · have e : 4 + (i - 3 - 1) = i := by omega
      rw [e]
      have h28 : i - 3 - 1 < 28 := by omega
      simp [h28]

/-- A low half is known by its three fields. -/
theorem low_eq_iff (lo : BitVec 32) (r : BitVec 28) (b : Bool) (p : BitVec 3) :
    lo = r ++ BitVec.ofBool b ++ p ↔ lo.extractLsb' 4 28 = r ∧ lo.getLsbD 3 = b ∧ lo.extractLsb' 0 3 = p := by
  constructor
  · rintro rfl
    refine ⟨?_, ?_, BitVec.extractLsb'_append_eq_right⟩
    · rw [BitVec.append_assoc]
      exact BitVec.extractLsb'_append_eq_left
    · rw [BitVec.getLsbD_append, if_neg (by decide), BitVec.getLsbD_append, if_pos (by decide)]
      cases b <;> rfl
  · rintro ⟨rfl, rfl, rfl⟩
    exact low_eq_fields lo

/-- The fields of a word written as its halves. -/
theorem fields_halves (hi lo : BitVec 32) :
    (hi ++ lo : BitVec 64).extractLsb' 32 32 = hi ∧ (hi ++ lo : BitVec 64).extractLsb' 4 28 = lo.extractLsb' 4 28 ∧
      (hi ++ lo : BitVec 64).getLsbD 3 = lo.getLsbD 3 ∧
      (hi ++ lo : BitVec 64).extractLsb' 0 3 = lo.extractLsb' 0 3 :=
  ⟨BitVec.extractLsb'_append_eq_left, BitVec.extractLsb'_append_eq_of_add_le (by decide), by
    rw [BitVec.getLsbD_append, if_pos (by decide)], BitVec.extractLsb'_append_eq_of_add_le (by decide)⟩

end Sys2Proof
end

