-- ==== Sys2Proof/Laws/Primitives.lean ====
section
/-! SUPPORT. What the integer primitives, the counter and the history shifts do (00_scope.md R12;
40_counter_history.md). -/

namespace Sys2Proof.Machine

/-- Masking is taking a remainder (00_scope.md R12). -/
theorem and_mask (x n : Nat) : x &&& mask n = x % 2 ^ n := Nat.and_two_pow_sub_one_eq_mod x n

theorem and_mask_lt (x n : Nat) : x &&& mask n < 2 ^ n := by
  rw [and_mask]; exact Nat.mod_lt _ (Nat.two_pow_pos n)

/-- A clamped value is in range, when the range is not empty. -/
theorem clamp_mem (v : Int) {lo hi : Int} (h : lo ≤ hi) : lo ≤ clamp v lo hi ∧ clamp v lo hi ≤ hi := by
  unfold clamp; split <;> [exact ⟨le_rfl, h⟩; split] <;> omega

theorem sgn_eq (b : Bool) : sgn b = 1 ∨ sgn b = -1 := by cases b <;> simp [sgn]

/-- ctr_predict is the threshold 2 (40_counter_history.md R112). -/
theorem ctrPredict_eq (v : Counter) : ctrPredict v = decide (2 ≤ v.toNat) := by
  unfold ctrPredict; split <;> simp <;> omega

/-- ctr_train as saturating arithmetic (40_counter_history.md R113). -/
theorem ctrTrain_toNat (v : Counter) (o : Bool) :
    (ctrTrain v o).toNat = if o then min (v.toNat + 1) 3 else v.toNat - 1 := by
  revert v o; decide

/-- hist_shift as arithmetic (40_counter_history.md R117). -/
theorem histShift_eq (h : Nat) (o : Bool) (n : Nat) : histShift h o n = (2 * h + o.toNat) % 2 ^ n := by
  have e : (h <<< 1) ||| o.toNat = 2 * h + o.toNat := by
    have := Nat.two_pow_add_eq_or_of_lt (i := 1) (b := o.toNat) (by cases o <;> decide) h
    rw [Nat.shiftLeft_eq, Nat.mul_comm]
    simpa using this.symm
  rw [histShift, e, and_mask]

theorem histShift_lt (h : Nat) (o : Bool) (n : Nat) : histShift h o n < 2 ^ n := by
  rw [histShift_eq]; exact Nat.mod_lt _ (Nat.two_pow_pos n)

/-- perc_shift keeps the length of a history that is not empty (40_counter_history.md R119). -/
theorem percShift_length {h : List Bool} (o : Bool) (hk : 1 ≤ h.length) : (percShift h o).length = h.length := by
  simp [percShift]; omega

end Sys2Proof.Machine
end

