-- ==== Sys2Proof/Laws/Table.lean ====
section
/-! SUPPORT. What reading and writing a table do (20_memory.md R62), and that a write keeps the canonical form. -/

namespace Sys2Proof.Machine

variable {α : Type} [DecidableEq α]

omit [DecidableEq α] in
@[simp] theorem Table.create_entry (n : Nat) (v : α) (i : Nat) : (Table.create n v).entry i = v := rfl

omit [DecidableEq α] in
@[simp] theorem Table.create_read (n : Nat) (v : α) (i : Nat) :
    (Table.create n v).read i = if i < n then some v else none := rfl

omit [DecidableEq α] in
theorem Table.create_wf (n : Nat) (v : α) : (Table.create n v).wf :=
  ⟨List.Pairwise.nil, fun _ h => absurd h List.not_mem_nil⟩

omit [DecidableEq α] in
/-- A read in range answers the entry. -/
theorem Table.read_of_lt {t : Table α} {i : Nat} (h : i < t.size) : t.read i = some (t.entry i) := if_pos h

omit [DecidableEq α] in
theorem Table.read_of_le {t : Table α} {i : Nat} (h : t.size ≤ i) : t.read i = none := if_neg (by omega)

omit [DecidableEq α] in
theorem Table.read_eq_some {t : Table α} {i : Nat} {v : α} : t.read i = some v ↔ i < t.size ∧ t.entry i = v := by
  unfold Table.read; split <;> simp [*]

omit [DecidableEq α] in
/-- No entry is listed below the first listed index. -/
theorem cellsFind_none_of_lt {cs : List (Nat × α)} {i : Nat} (h : ∀ c ∈ cs, i < c.1) : cellsFind cs i = none := by
  induction cs with
  | nil => rfl
  | cons c cs ih =>
    have hc := h c List.mem_cons_self
    rw [cellsFind, if_neg (by omega)]
    exact ih fun d hd => h d (List.mem_cons_of_mem _ hd)

/-- What the list reads as after a put. -/
theorem cellsFind_put (fill : α) (cs : List (Nat × α)) (i j : Nat) (v : α)
    (hs : cs.Pairwise (fun a b => a.1 < b.1)) :
    (cellsFind (cellsPut fill cs i v) j).getD fill = if j = i then v else (cellsFind cs j).getD fill := by
  induction cs with
  | nil =>
    by_cases hv : v = fill <;> by_cases hj : j = i
    · simp [cellsPut, cellsFind, hv]
    · simp [cellsPut, cellsFind, hv]
    · simp [cellsPut, cellsFind, hv, hj]
    · simp [cellsPut, cellsFind, hv, hj, Ne.symm hj]
  | cons c cs ih =>
    obtain ⟨k, w⟩ := c
    obtain ⟨hk, hs⟩ := List.pairwise_cons.mp hs
    have below : ∀ m, m ≤ k → cellsFind cs m = none := fun m hm =>
      cellsFind_none_of_lt fun d hd => by have := hk d hd; omega
    rw [cellsPut]
    by_cases hlt : i < k
    · rw [if_pos hlt]
      by_cases hj : j = i
      · subst hj
        split
        · rename_i hv
          simp [cellsFind, below j (by omega), hv, show k ≠ j by omega]
        · simp [cellsFind]
      · split
        · simp
        · simp [cellsFind, Ne.symm hj]
    · rw [if_neg hlt]
      by_cases he : i = k
      · subst he
        rw [if_pos rfl]
        by_cases hj : j = i
        · subst hj
          split
          · rename_i hv; simp [below j le_rfl, hv]
          · simp [cellsFind]
        · split <;> simp [cellsFind, Ne.symm hj]
      · rw [if_neg he, cellsFind, cellsFind]
        by_cases hkj : k = j
        · rw [if_pos hkj, if_pos hkj, if_neg (by omega)]
        · rw [if_neg hkj, if_neg hkj, ih hs]

/-- A put changes what the list reads as at no other index, in canonical form or not. -/
theorem cellsFind_put_ne (fill : α) (cs : List (Nat × α)) {i j : Nat} (v : α) (hj : j ≠ i) :
    cellsFind (cellsPut fill cs i v) j = cellsFind cs j := by
  induction cs with
  | nil => unfold cellsPut; split <;> simp [cellsFind, Ne.symm hj]
  | cons c cs ih =>
    obtain ⟨k, w⟩ := c
    rw [cellsPut]
    split
    · split <;> simp [cellsFind, Ne.symm hj]
    · split
      · rename_i he
        subst he
        split <;> simp [cellsFind, Ne.symm hj]
      · simp [cellsFind, ih]

/-- A put lists nothing but what was listed and the new entry, and that only if it differs from `fill`. -/
theorem mem_cellsPut {fill : α} {cs : List (Nat × α)} {i : Nat} {v : α} {c : Nat × α}
    (h : c ∈ cellsPut fill cs i v) : c ∈ cs ∨ (c = (i, v) ∧ v ≠ fill) := by
  induction cs with
  | nil =>
    by_cases hv : v = fill
    · simp [cellsPut, hv] at h
    · simp only [cellsPut, hv, if_false, List.mem_singleton] at h
      exact .inr ⟨h, hv⟩
  | cons d cs ih =>
    obtain ⟨k, w⟩ := d
    rw [cellsPut] at h
    split at h
    · split at h
      · exact .inl h
      · rename_i hv
        rcases List.mem_cons.mp h with rfl | h
        · exact .inr ⟨rfl, hv⟩
        · exact .inl h
    · split at h
      · split at h
        · exact .inl (List.mem_cons_of_mem _ h)
        · rename_i hv
          rcases List.mem_cons.mp h with rfl | h
          · exact .inr ⟨rfl, hv⟩
          · exact .inl (List.mem_cons_of_mem _ h)
      · rcases List.mem_cons.mp h with rfl | h
        · exact .inl List.mem_cons_self
        · rcases ih h with h | h
          · exact .inl (List.mem_cons_of_mem _ h)
          · exact .inr h

/-- A put keeps the indices rising. -/
theorem pairwise_cellsPut {fill : α} {cs : List (Nat × α)} {i : Nat} {v : α}
    (hs : cs.Pairwise (fun a b => a.1 < b.1)) : (cellsPut fill cs i v).Pairwise (fun a b => a.1 < b.1) := by
  induction cs with
  | nil => unfold cellsPut; split <;> simp
  | cons d cs ih =>
    obtain ⟨k, w⟩ := d
    obtain ⟨hk, hs'⟩ := List.pairwise_cons.mp hs
    rw [cellsPut]
    split
    · split
      · exact hs
      · refine List.pairwise_cons.mpr ⟨?_, hs⟩
        rintro c hc
        rcases List.mem_cons.mp hc with rfl | hc
        · assumption
        · have := hk c hc; simp only at this ⊢; omega
    · split
      · rename_i he
        subst he
        split
        · exact hs'
        · exact List.pairwise_cons.mpr ⟨hk, hs'⟩
      · refine List.pairwise_cons.mpr ⟨?_, ih hs'⟩
        intro c hc
        rcases mem_cellsPut hc with hc | ⟨rfl, -⟩
        · exact hk c hc
        · simp only; omega

/-- Everything a write that is in range does: the size and the fill value stay, the canonical form is kept, the entry
written reads as the value, every other entry as before. -/
theorem Table.write_spec {t t' : Table α} {i : Nat} {v : α} (hw : t.wf) (h : t.write i v = some t') :
    i < t.size ∧ t'.size = t.size ∧ t'.fill = t.fill ∧ t'.wf ∧
      ∀ j, t'.entry j = if j = i then v else t.entry j := by
  unfold Table.write at h
  split at h
  · rename_i hi
    cases h
    refine ⟨hi, rfl, rfl, ⟨pairwise_cellsPut hw.1, ?_⟩, fun j => cellsFind_put t.fill t.cells i j v hw.1⟩
    intro c hc
    rcases mem_cellsPut hc with hc | ⟨rfl, hv⟩
    · exact hw.2 c hc
    · exact ⟨hi, hv⟩
  · cases h

/-- A write in range succeeds. -/
theorem Table.write_of_lt {t : Table α} {i : Nat} (v : α) (h : i < t.size) : ∃ t', t.write i v = some t' :=
  ⟨_, if_pos h⟩

theorem Table.write_of_le {t : Table α} {i : Nat} (v : α) (h : t.size ≤ i) : t.write i v = none :=
  if_neg (by omega)

/-- What a table reads as after a write. -/
theorem Table.read_write {t t' : Table α} {i : Nat} {v : α} (hw : t.wf) (h : t.write i v = some t') (j : Nat) :
    t'.read j = if j = i then some v else t.read j := by
  obtain ⟨hi, hsz, -, -, he⟩ := Table.write_spec hw h
  unfold Table.read
  rw [hsz, he]
  by_cases hj : j = i
  · subst hj; simp [hi]
  · simp [hj]

/-- A write changes what is read at no other index, whatever the table. -/
theorem Table.read_write_ne {t t' : Table α} {i : Nat} {v : α} (h : t.write i v = some t') {j : Nat} (hj : j ≠ i) :
    t'.read j = t.read j := by
  unfold Table.write at h
  split at h
  · cases h
    unfold Table.read Table.entry
    rw [cellsFind_put_ne _ _ _ hj]
  · cases h

omit [DecidableEq α] in
/-- Outside a table every entry is the fill value. -/
theorem Table.entry_of_le {t : Table α} (hw : t.wf) {i : Nat} (h : t.size ≤ i) : t.entry i = t.fill := by
  unfold Table.entry
  have : ∀ cs : List (Nat × α), (∀ c ∈ cs, c.1 < t.size) → cellsFind cs i = none := by
    intro cs
    induction cs with
    | nil => intro _; rfl
    | cons c cs ih =>
      intro hc
      have h1 := hc c List.mem_cons_self
      rw [cellsFind, if_neg (by omega)]
      exact ih fun d hd => hc d (List.mem_cons_of_mem _ hd)
  rw [this t.cells fun c hc => (hw.2 c hc).1]
  rfl

end Sys2Proof.Machine
end

