-- ==== Sys2Proof/Laws/Schemes.lean ====
section
/-! SUPPORT. One spec lemma per scheme body: under the invariants of its scheme a body is never out of range, what it
answers, and that the invariants are kept (42_gshare.md, 43_tournament.md, 44_perceptron.md). -/

namespace Sys2Proof.Machine

/-! ### GShare -/

theorem gidx_lt (h ghr : Nat) (pc : Word) : gidx h ghr pc < 2 ^ h := and_mask_lt _ _

/-- GShare PREDICT (42_gshare.md R161). -/
theorem gsharePredict_spec {h : Nat} {g : GShare} (hs : g.pht.size = 2 ^ h) (pc : Word) :
    gsharePredict h g pc = some (ctrPredict (g.pht.entry (gidx h g.ghr pc))) := by
  unfold gsharePredict
  rw [Table.read_of_lt (hs ▸ gidx_lt h g.ghr pc)]
  rfl

/-- GShare TRAIN (42_gshare.md R162). -/
theorem gshareTrain_spec {h : Nat} {g : GShare} (hg : GShareOk h g) (pc : Word) (o : Bool) :
    ∃ g', gshareTrain h g pc o = some g' ∧ GShareOk h g' ∧ g'.ghr = histShift g.ghr o h ∧ g'.pht.size = g.pht.size ∧
      ∀ j, g'.pht.entry j =
        if j = gidx h g.ghr pc then ctrTrain (g.pht.entry (gidx h g.ghr pc)) o else g.pht.entry j := by
  have hi : gidx h g.ghr pc < g.pht.size := hg.pht.1 ▸ gidx_lt h g.ghr pc
  obtain ⟨pht, hp⟩ := Table.write_of_lt (ctrTrain (g.pht.entry (gidx h g.ghr pc)) o) hi
  obtain ⟨-, hsz, -, hwf, he⟩ := Table.write_spec hg.pht.2 hp
  refine ⟨{ ghr := histShift g.ghr o h, pht := pht }, ?_, ⟨histShift_lt _ _ _, hsz.trans hg.pht.1, hwf⟩, rfl, hsz, he⟩
  simp [gshareTrain, Table.read_of_lt hi, hp]

/-! ### Tournament -/

theorem tgidx_lt {h ghr : Nat} (hg : ghr < 2 ^ h) (x : Bool) (pc : Word) : tgidx h x ghr pc < 2 ^ h := by
  unfold tgidx; split
  · exact and_mask_lt _ _
  · exact hg

theorem lslot_lt (p : Nat) (pc : Word) : lslot p pc < 2 ^ p := and_mask_lt _ _

section
variable {h l p : Nat} {t : Tournament}

/-- The global sub-prediction (43_tournament.md R181). -/
theorem globalPred_spec (ht : TournamentOk h l p t) (x : Bool) (pc : Word) :
    globalPred h x t pc = some (ctrPredict (t.gpht.entry (tgidx h x t.ghr pc))) := by
  unfold globalPred
  rw [Table.read_of_lt (ht.gpht.1 ▸ tgidx_lt ht.ghr x pc)]
  rfl

/-- The local sub-prediction (43_tournament.md R182). -/
theorem localPred_spec (ht : TournamentOk h l p t) (pc : Word) :
    localPred p t pc = some (ctrPredict (t.lpht.entry (t.lht.entry (lslot p pc)))) := by
  unfold localPred
  rw [Table.read_of_lt (ht.lht.1 ▸ lslot_lt p pc)]
  simp [Table.read_of_lt (ht.lpht.1 ▸ ht.local_lt (lslot p pc))]

/-- Tournament PREDICT (43_tournament.md R183). -/
theorem tourPredict_spec (ht : TournamentOk h l p t) (x : Bool) (pc : Word) :
    tourPredict h p x t pc = some
      (if (t.chooser.entry t.ghr).toNat ≤ 1 then ctrPredict (t.gpht.entry (tgidx h x t.ghr pc))
       else ctrPredict (t.lpht.entry (t.lht.entry (lslot p pc)))) := by
  unfold tourPredict
  rw [Table.read_of_lt (ht.chooser.1 ▸ ht.ghr)]
  simp only [Option.bind_eq_bind, Option.bind_some, globalPred_spec ht, localPred_spec ht]
  split <;> rfl

/-- The chooser's update (43_tournament.md R185). -/
theorem trainChooser_spec {c : Table Counter} {ci : Nat} (hc : c.wf) (hi : ci < c.size) (gp lp o : Bool) :
    ∃ c', trainChooser c ci gp lp o = some c' ∧ c'.size = c.size ∧ c'.wf ∧ (gp = lp → c' = c) ∧
      ∀ j, c'.entry j = if j = ci ∧ gp ≠ lp then ctrTrain (c.entry ci) (lp == o) else c.entry j := by
  unfold trainChooser
  by_cases hd : gp = lp
  · exact ⟨c, if_pos hd, rfl, hc, fun _ => rfl, fun j => by simp [hd]⟩
  · obtain ⟨c', hp⟩ := Table.write_of_lt (ctrTrain (c.entry ci) (lp == o)) hi
    obtain ⟨-, hsz, -, hwf, he⟩ := Table.write_spec hc hp
    refine ⟨c', ?_, hsz, hwf, fun h => absurd h hd, fun j => ?_⟩
    · simp [hd, Table.read_of_lt hi, hp]
    · rw [he]; simp [hd]

/-- Tournament TRAIN (43_tournament.md R185). -/
theorem tourTrain_spec (ht : TournamentOk h l p t) (x : Bool) (pc : Word) (o : Bool) :
    ∃ t', tourTrain h l p x t pc o = some t' ∧ TournamentOk h l p t' ∧
      t'.ghr = histShift t.ghr o h ∧
      (t'.gpht.size = t.gpht.size ∧ t'.chooser.size = t.chooser.size ∧ t'.lht.size = t.lht.size ∧
        t'.lpht.size = t.lpht.size) ∧
      (∀ j, t'.gpht.entry j =
        if j = tgidx h x t.ghr pc then ctrTrain (t.gpht.entry (tgidx h x t.ghr pc)) o else t.gpht.entry j) ∧
      (∀ j, t'.chooser.entry j =
        if j = t.ghr ∧ ctrPredict (t.gpht.entry (tgidx h x t.ghr pc)) ≠
            ctrPredict (t.lpht.entry (t.lht.entry (lslot p pc)))
        then ctrTrain (t.chooser.entry t.ghr) (ctrPredict (t.lpht.entry (t.lht.entry (lslot p pc))) == o)
        else t.chooser.entry j) ∧
      (∀ j, t'.lpht.entry j =
        if j = t.lht.entry (lslot p pc) then ctrTrain (t.lpht.entry (t.lht.entry (lslot p pc))) o
        else t.lpht.entry j) ∧
      (∀ j, t'.lht.entry j =
        if j = lslot p pc then histShift (t.lht.entry (lslot p pc)) o l else t.lht.entry j) ∧
      (ctrPredict (t.gpht.entry (tgidx h x t.ghr pc)) = ctrPredict (t.lpht.entry (t.lht.entry (lslot p pc))) →
        t'.chooser = t.chooser) := by
  have hgi : tgidx h x t.ghr pc < t.gpht.size := ht.gpht.1 ▸ tgidx_lt ht.ghr x pc
  have hci : t.ghr < t.chooser.size := ht.chooser.1 ▸ ht.ghr
  have hsl : lslot p pc < t.lht.size := ht.lht.1 ▸ lslot_lt p pc
  have hlh : t.lht.entry (lslot p pc) < t.lpht.size := ht.lpht.1 ▸ ht.local_lt _
  obtain ⟨ch, hch, hchs, hchw, hche, hchj⟩ := trainChooser_spec ht.chooser.2 hci
    (ctrPredict (t.gpht.entry (tgidx h x t.ghr pc))) (ctrPredict (t.lpht.entry (t.lht.entry (lslot p pc)))) o
  obtain ⟨gp, hgp⟩ := Table.write_of_lt (ctrTrain (t.gpht.entry (tgidx h x t.ghr pc)) o) hgi
  obtain ⟨lp, hlp⟩ := Table.write_of_lt (ctrTrain (t.lpht.entry (t.lht.entry (lslot p pc))) o) hlh
  obtain ⟨lt, hlt⟩ := Table.write_of_lt (histShift (t.lht.entry (lslot p pc)) o l) hsl
  obtain ⟨-, hgs, -, hgw, hge⟩ := Table.write_spec ht.gpht.2 hgp
  obtain ⟨-, hls, -, hlw, hle⟩ := Table.write_spec ht.lpht.2 hlp
  obtain ⟨-, hts, -, htw, hte⟩ := Table.write_spec ht.lht.2 hlt
  refine ⟨{ ghr := histShift t.ghr o h, gpht := gp, chooser := ch, lht := lt, lpht := lp }, ?_,
    { ghr := histShift_lt _ _ _, gpht := ⟨hgs.trans ht.gpht.1, hgw⟩, chooser := ⟨hchs.trans ht.chooser.1, hchw⟩,
      lht := ⟨hts.trans ht.lht.1, htw⟩, lpht := ⟨hls.trans ht.lpht.1, hlw⟩,
      local_lt := fun i => ?_ },
    rfl, ⟨hgs, hchs, hts, hls⟩, hge, hchj, hle, hte, hche⟩
  · simp [tourTrain, Table.read_of_lt hgi, Table.read_of_lt hsl, Table.read_of_lt hlh, hch, hgp, hlp, hlt]
  · show lt.entry i < 2 ^ l
    rw [hte]; split
    · exact histShift_lt _ _ _
    · exact ht.local_lt i

end

/-! ### Perceptron -/

theorem prow_lt {e : Nat} (he : 1 ≤ e) (x : Bool) (phr : List Bool) (pc : Word) : prow e x phr pc < e := by
  unfold prow foldRow; split <;> exact Nat.mod_lt _ he

/-- Training keeps a row's length and its clamp bounds (44_perceptron.md R216). -/
theorem trainRow_ok {k w : Nat} {phr : List Bool} {row : List Int} (hw : 1 ≤ w) (hp : phr.length = k)
    (hr : RowOk k w row) (o : Bool) : RowOk k w (trainRow w phr o row) := by
  obtain ⟨hl, -⟩ := hr
  cases row with
  | nil => simp at hl
  | cons b ws =>
    have hb : (-(w : Int)) ≤ (w : Int) - 1 := by omega
    have hws : ws.length = k := by simpa using hl
    constructor
    · simp [trainRow, hp, hws]
    · intro x hx
      rcases List.mem_cons.mp hx with rfl | hx
      · exact clamp_mem _ hb
      · obtain ⟨i, hi, rfl⟩ := List.mem_iff_getElem.mp hx
        rw [List.getElem_zipWith]
        exact clamp_mem _ hb

/-- A sum of K terms, each between -W and W. -/
theorem sum_zipWith_sgn_bounds {w : Nat} (hs : List Bool) (ws : List Int)
    (hw : ∀ x ∈ ws, -(w : Int) ≤ x ∧ x ≤ (w : Int) - 1) :
    -((ws.length : Int) * w) ≤ (List.zipWith (fun h x => sgn h * x) hs ws).sum ∧
      (List.zipWith (fun h x => sgn h * x) hs ws).sum ≤ (ws.length : Int) * w := by
  induction ws generalizing hs with
  | nil => simp
  | cons x ws ih =>
    have nonneg : (0 : Int) ≤ ((ws.length : Int) + 1) * w := by positivity
    cases hs with
    | nil =>
      simp only [List.zipWith_nil_left, List.sum_nil, List.length_cons, Nat.cast_add, Nat.cast_one]
      omega
    | cons b hs =>
      obtain ⟨h1, h2⟩ := ih hs fun y hy => hw y (List.mem_cons_of_mem _ hy)
      obtain ⟨h3, h4⟩ := hw x List.mem_cons_self
      simp only [List.zipWith_cons_cons, List.sum_cons, List.length_cons, Nat.cast_add, Nat.cast_one, add_mul, one_mul]
      rcases sgn_eq b with hb | hb <;> rw [hb] <;> constructor <;> linarith

/-- The range of the weighted sum (44_perceptron.md R213). -/
theorem weightedSum_bounds {k w : Nat} {row : List Int} (phr : List Bool) (hr : RowOk k w row) :
    -(((k : Int) + 1) * w) ≤ weightedSum phr row ∧ weightedSum phr row ≤ (k : Int) * w + w - 1 := by
  obtain ⟨hl, hm⟩ := hr
  cases row with
  | nil => simp at hl
  | cons b ws =>
    have hk : (ws.length : Int) = k := by simpa using hl
    obtain ⟨h1, h2⟩ := hm b List.mem_cons_self
    obtain ⟨h3, h4⟩ := sum_zipWith_sgn_bounds phr.reverse ws fun x hx => hm x (List.mem_cons_of_mem _ hx)
    rw [hk] at h3 h4
    simp only [weightedSum]
    constructor <;> linarith

theorem weightedSum_natAbs_le {k w : Nat} {row : List Int} (phr : List Bool) (hr : RowOk k w row) :
    (weightedSum phr row).natAbs ≤ (k + 1) * w := by
  obtain ⟨h1, h2⟩ := weightedSum_bounds phr hr
  have : (((k + 1) * w : Nat) : Int) = ((k : Int) + 1) * w := by push_cast; ring
  have h3 : ((k : Int) + 1) * w = (k : Int) * w + w := by ring
  omega

section
variable {e k w : Nat} {q : Perceptron}

/-- Perceptron PREDICT (44_perceptron.md R212). -/
theorem percPredict_spec (he : 1 ≤ e) (hq : PerceptronOk e k w q) (x : Bool) (pc : Word) :
    percPredict e k x q pc = some
      (decide (0 ≤ weightedSum q.phr (q.wt.entry (prow e x q.phr pc))),
        { q with
          lastPred := decide (0 ≤ weightedSum q.phr (q.wt.entry (prow e x q.phr pc))),
          lastMag := (weightedSum q.phr (q.wt.entry (prow e x q.phr pc))).natAbs }) := by
  have hi : prow e x q.phr pc < q.wt.size := hq.wt.1.symm ▸ prow_lt he x q.phr pc
  simp [percPredict, Table.read_of_lt hi, percSum, hq.phr, (hq.rows _).1]

/-- The latches keep the invariants (44_perceptron.md R213). -/
theorem percLatch_ok (hq : PerceptronOk e k w q) (b : Bool) (r : Nat) :
    PerceptronOk e k w { q with lastPred := b, lastMag := (weightedSum q.phr (q.wt.entry r)).natAbs } :=
  ⟨hq.phr, hq.wt, hq.rows, weightedSum_natAbs_le q.phr (hq.rows r)⟩

/-- The gated update of the weights (44_perceptron.md R214, R215). -/
theorem trainWeights_spec (hw : 1 ≤ w) (hq : PerceptronOk e k w q) (theta : Nat) {r : Nat} (hr : r < e) (o : Bool) :
    ∃ wt, trainWeights k theta w r q o = some wt ∧ TableOk e wt ∧ (∀ i, RowOk k w (wt.entry i)) ∧
      (trainNow theta q o = false → wt = q.wt) ∧
      (trainNow theta q o = true →
        ∀ i, wt.entry i = if i = r then trainRow w q.phr o (q.wt.entry r) else q.wt.entry i) := by
  unfold trainWeights
  cases ht : trainNow theta q o with
  | false => exact ⟨q.wt, by simp, hq.wt, hq.rows, fun _ => rfl, fun h => by cases h⟩
  | true =>
    have hi : r < q.wt.size := hq.wt.1.symm ▸ hr
    obtain ⟨wt, hp⟩ := Table.write_of_lt (trainRow w q.phr o (q.wt.entry r)) hi
    obtain ⟨-, hsz, -, hwf, he⟩ := Table.write_spec hq.wt.2 hp
    refine ⟨wt, ?_, ⟨hsz.trans hq.wt.1, hwf⟩, fun i => ?_, fun h => by (cases h), fun _ => he⟩
    · simp [Table.read_of_lt hi, hq.phr, (hq.rows r).1, hp]
    · rw [he]; split
      · exact trainRow_ok hw hq.phr (hq.rows r) o
      · exact hq.rows i

/-- Perceptron TRAIN (44_perceptron.md R215). -/
theorem percTrain_spec (he : 1 ≤ e) (hk : 1 ≤ k) (hw : 1 ≤ w) (hq : PerceptronOk e k w q) (theta : Nat) (x : Bool)
    (pc : Word) (o : Bool) :
    ∃ wt, percTrain e k theta w x q pc o = some { q with wt := wt, phr := percShift q.phr o } ∧
      PerceptronOk e k w { q with wt := wt, phr := percShift q.phr o } ∧
      (trainNow theta q o = false → wt = q.wt) ∧
      (trainNow theta q o = true → ∀ i, wt.entry i =
        if i = prow e x q.phr pc then trainRow w q.phr o (q.wt.entry (prow e x q.phr pc)) else q.wt.entry i) := by
  obtain ⟨wt, h1, h2, h3, h4, h5⟩ := trainWeights_spec hw hq theta (prow_lt he x q.phr pc) o
  refine ⟨wt, by simp [percTrain, h1], ⟨?_, h2, h3, hq.mag⟩, h4, h5⟩
  show (percShift q.phr o).length = k
  rw [percShift_length o (hq.phr.symm ▸ hk), hq.phr]

end

end Sys2Proof.Machine
end

