-- ==== Sys2Proof/Laws/State.lean ====
section
/-! SUPPORT. One lemma per field of State for each update of it that the meanings make, each true by rfl, so that no
later proof unfolds a record update. -/

namespace Sys2Proof.Machine

@[simp] theorem respond_params (p : Bool) (s : State) : (respond p s).params = s.params := rfl
@[simp] theorem respond_opState (p : Bool) (s : State) : (respond p s).opState = s.opState := rfl
@[simp] theorem respond_cfg0 (p : Bool) (s : State) : (respond p s).cfg0 = s.cfg0 := rfl
@[simp] theorem respond_cfg1 (p : Bool) (s : State) : (respond p s).cfg1 = s.cfg1 := rfl
@[simp] theorem respond_cfg2 (p : Bool) (s : State) : (respond p s).cfg2 = s.cfg2 := rfl
@[simp] theorem respond_cfg3 (p : Bool) (s : State) : (respond p s).cfg3 = s.cfg3 := rfl
@[simp] theorem respond_cfg4 (p : Bool) (s : State) : (respond p s).cfg4 = s.cfg4 := rfl
@[simp] theorem respond_fcode (p : Bool) (s : State) : (respond p s).fcode = s.fcode := rfl
@[simp] theorem respond_fdetail (p : Bool) (s : State) : (respond p s).fdetail = s.fdetail := rfl
@[simp] theorem respond_fcmd (p : Bool) (s : State) : (respond p s).fcmd = s.fcmd := rfl
@[simp] theorem respond_pendPc (p : Bool) (s : State) : (respond p s).pendPc = s.pendPc := rfl
@[simp] theorem respond_scheme (p : Bool) (s : State) : (respond p s).scheme = s.scheme := rfl
@[simp] theorem respond_cfgPort (p : Bool) (s : State) : (respond p s).cfgPort = s.cfgPort := rfl
@[simp] theorem respond_inputs (p : Bool) (s : State) : (respond p s).inputs = s.inputs := rfl
@[simp] theorem respond_resp (p : Bool) (s : State) : (respond p s).resp = some (respWord p (status s)) := rfl

@[simp] theorem latchConfig_params (s : State) : (latchConfig s).params = s.params := rfl
@[simp] theorem latchConfig_opState (s : State) : (latchConfig s).opState = .ready := rfl
@[simp] theorem latchConfig_cfg0 (s : State) : (latchConfig s).cfg0 = recordWord s.cfgPort 0 := rfl
@[simp] theorem latchConfig_cfg1 (s : State) : (latchConfig s).cfg1 = recordWord s.cfgPort 1 := rfl
@[simp] theorem latchConfig_cfg2 (s : State) : (latchConfig s).cfg2 = recordWord s.cfgPort 2 := rfl
@[simp] theorem latchConfig_cfg3 (s : State) : (latchConfig s).cfg3 = recordWord s.cfgPort 3 := rfl
@[simp] theorem latchConfig_cfg4 (s : State) : (latchConfig s).cfg4 = recordWord s.cfgPort 4 := rfl
@[simp] theorem latchConfig_fcode (s : State) : (latchConfig s).fcode = s.fcode := rfl
@[simp] theorem latchConfig_fdetail (s : State) : (latchConfig s).fdetail = s.fdetail := rfl
@[simp] theorem latchConfig_fcmd (s : State) : (latchConfig s).fcmd = s.fcmd := rfl
@[simp] theorem latchConfig_pendPc (s : State) : (latchConfig s).pendPc = 0#32 := rfl
@[simp] theorem latchConfig_scheme (s : State) : (latchConfig s).scheme = createScheme s.params s.cfgPort := rfl
@[simp] theorem latchConfig_cfgPort (s : State) : (latchConfig s).cfgPort = s.cfgPort := rfl
@[simp] theorem latchConfig_inputs (s : State) : (latchConfig s).inputs = s.inputs := rfl
@[simp] theorem latchConfig_resp (s : State) : (latchConfig s).resp = s.resp := rfl

@[simp] theorem applyRst_params (s : State) : (applyRst s).params = s.params := rfl
@[simp] theorem applyRst_opState (s : State) : (applyRst s).opState = .unconfigured := rfl
@[simp] theorem applyRst_cfg0 (s : State) : (applyRst s).cfg0 = 0#32 := rfl
@[simp] theorem applyRst_cfg1 (s : State) : (applyRst s).cfg1 = 0#32 := rfl
@[simp] theorem applyRst_cfg2 (s : State) : (applyRst s).cfg2 = 0#32 := rfl
@[simp] theorem applyRst_cfg3 (s : State) : (applyRst s).cfg3 = 0#32 := rfl
@[simp] theorem applyRst_cfg4 (s : State) : (applyRst s).cfg4 = 0#32 := rfl
@[simp] theorem applyRst_fcode (s : State) : (applyRst s).fcode = .noFault := rfl
@[simp] theorem applyRst_fdetail (s : State) : (applyRst s).fdetail = .noDetail := rfl
@[simp] theorem applyRst_fcmd (s : State) : (applyRst s).fcmd = 0#64 := rfl
@[simp] theorem applyRst_pendPc (s : State) : (applyRst s).pendPc = 0#32 := rfl
@[simp] theorem applyRst_scheme (s : State) : (applyRst s).scheme = none := rfl
@[simp] theorem applyRst_cfgPort (s : State) : (applyRst s).cfgPort = s.cfgPort := rfl
@[simp] theorem applyRst_inputs (s : State) : (applyRst s).inputs = s.inputs := rfl
@[simp] theorem applyRst_resp (s : State) : (applyRst s).resp = none := rfl

@[simp] theorem presentWord_params (w : CmdWord) (s : State) : (presentWord s w).params = s.params := rfl
@[simp] theorem presentWord_opState (w : CmdWord) (s : State) : (presentWord s w).opState = s.opState := rfl
@[simp] theorem presentWord_cfg0 (w : CmdWord) (s : State) : (presentWord s w).cfg0 = s.cfg0 := rfl
@[simp] theorem presentWord_cfg1 (w : CmdWord) (s : State) : (presentWord s w).cfg1 = s.cfg1 := rfl
@[simp] theorem presentWord_cfg2 (w : CmdWord) (s : State) : (presentWord s w).cfg2 = s.cfg2 := rfl
@[simp] theorem presentWord_cfg3 (w : CmdWord) (s : State) : (presentWord s w).cfg3 = s.cfg3 := rfl
@[simp] theorem presentWord_cfg4 (w : CmdWord) (s : State) : (presentWord s w).cfg4 = s.cfg4 := rfl
@[simp] theorem presentWord_fcode (w : CmdWord) (s : State) : (presentWord s w).fcode = s.fcode := rfl
@[simp] theorem presentWord_fdetail (w : CmdWord) (s : State) : (presentWord s w).fdetail = s.fdetail := rfl
@[simp] theorem presentWord_fcmd (w : CmdWord) (s : State) : (presentWord s w).fcmd = s.fcmd := rfl
@[simp] theorem presentWord_pendPc (w : CmdWord) (s : State) : (presentWord s w).pendPc = s.pendPc := rfl
@[simp] theorem presentWord_scheme (w : CmdWord) (s : State) : (presentWord s w).scheme = s.scheme := rfl
@[simp] theorem presentWord_cfgPort (w : CmdWord) (s : State) : (presentWord s w).cfgPort = s.cfgPort := rfl
@[simp] theorem presentWord_inputs (w : CmdWord) (s : State) : (presentWord s w).inputs = .command w s.cfgPort :: s.inputs := rfl
@[simp] theorem presentWord_resp (w : CmdWord) (s : State) : (presentWord s w).resp = s.resp := rfl

@[simp] theorem reset_params : State.reset.params = Config.defaultParams := rfl
@[simp] theorem reset_opState : State.reset.opState = .unconfigured := rfl
@[simp] theorem reset_cfg0 : State.reset.cfg0 = 0#32 := rfl
@[simp] theorem reset_cfg1 : State.reset.cfg1 = 0#32 := rfl
@[simp] theorem reset_cfg2 : State.reset.cfg2 = 0#32 := rfl
@[simp] theorem reset_cfg3 : State.reset.cfg3 = 0#32 := rfl
@[simp] theorem reset_cfg4 : State.reset.cfg4 = 0#32 := rfl
@[simp] theorem reset_fcode : State.reset.fcode = .noFault := rfl
@[simp] theorem reset_fdetail : State.reset.fdetail = .noDetail := rfl
@[simp] theorem reset_fcmd : State.reset.fcmd = 0#64 := rfl
@[simp] theorem reset_pendPc : State.reset.pendPc = 0#32 := rfl
@[simp] theorem reset_scheme : State.reset.scheme = none := rfl
@[simp] theorem reset_cfgPort : State.reset.cfgPort = 0#160 := rfl
@[simp] theorem reset_inputs : State.reset.inputs = [] := rfl
@[simp] theorem reset_resp : State.reset.resp = none := rfl

@[simp] theorem status_respond (p : Bool) (s : State) : status (respond p s) = status s := rfl
@[simp] theorem activeScheme_respond (p : Bool) (s : State) : (respond p s).activeScheme = s.activeScheme := rfl

end Sys2Proof.Machine
end

