-- ==== Sys2Proof/Laws/Engine.lean ====
section
/-! SUPPORT. The spec lemmas of the engine: the configuration record and its checks, what INIT creates, what the scheme
dispatch answers in a configured block, and what the shared operations do to the invariant. -/

namespace Sys2Proof.Machine

/-! ### The response and STATUS -/

@[simp] theorem respStatus_respWord (p : Bool) (st : Word) : respStatus (respWord p st) = st := by
  exact BitVec.extractLsb'_append_eq_left

@[simp] theorem respPred_respWord (p : Bool) (st : Word) : respPred (respWord p st) = p := by
  rw [respPred, respWord, BitVec.getLsbD_append, if_pos (by decide)]
  cases p <;> rfl

/-! ### The configuration record (30_encoding.md R86) -/

@[simp] theorem recordWord_recordOf_0 (c0 c1 c2 c3 c4 : Word) : recordWord (recordOf c0 c1 c2 c3 c4) 0 = c0 := by
  exact BitVec.extractLsb'_append_eq_right

@[simp] theorem recordWord_recordOf_1 (c0 c1 c2 c3 c4 : Word) : recordWord (recordOf c0 c1 c2 c3 c4) 1 = c1 := by
  rw [recordWord, recordOf, BitVec.extractLsb'_append_eq_of_le (by omega)]
  exact BitVec.extractLsb'_append_eq_right

@[simp] theorem recordWord_recordOf_2 (c0 c1 c2 c3 c4 : Word) : recordWord (recordOf c0 c1 c2 c3 c4) 2 = c2 := by
  rw [recordWord, recordOf, BitVec.extractLsb'_append_eq_of_le (by omega),
    BitVec.extractLsb'_append_eq_of_le (by omega)]
  exact BitVec.extractLsb'_append_eq_right

@[simp] theorem recordWord_recordOf_3 (c0 c1 c2 c3 c4 : Word) : recordWord (recordOf c0 c1 c2 c3 c4) 3 = c3 := by
  rw [recordWord, recordOf, BitVec.extractLsb'_append_eq_of_le (by omega),
    BitVec.extractLsb'_append_eq_of_le (by omega), BitVec.extractLsb'_append_eq_of_le (by omega)]
  exact BitVec.extractLsb'_append_eq_right

@[simp] theorem recordWord_recordOf_4 (c0 c1 c2 c3 c4 : Word) : recordWord (recordOf c0 c1 c2 c3 c4) 4 = c4 := by
  rw [recordWord, recordOf, BitVec.extractLsb'_append_eq_of_le (by omega),
    BitVec.extractLsb'_append_eq_of_le (by omega), BitVec.extractLsb'_append_eq_of_le (by omega)]
  exact BitVec.extractLsb'_append_eq_left

/-- A record is its five words. -/
theorem recordOf_recordWord (c : CfgRecord) :
    recordOf (recordWord c 0) (recordWord c 1) (recordWord c 2) (recordWord c 3) (recordWord c 4) = c := by
  apply BitVec.eq_of_getLsbD_eq
  intro i hi
  simp only [recordOf, recordWord, BitVec.getLsbD_append, BitVec.getLsbD_extractLsb']
  repeat' split
  all_goals
    have e : ∀ j, j = i → c.getLsbD j = c.getLsbD i := fun j h => h ▸ rfl
    rw [e _ (by omega)]
    simp
    omega

/-- The checks of INIT read only the five words of the record. -/
theorem configCheck_congr {b : Params} {c d : CfgRecord} (h : ∀ i, i < 5 → recordWord c i = recordWord d i) :
    configCheck b c = configCheck b d := by
  unfold configCheck
  rw [h 0 (by decide), h 1 (by decide), h 2 (by decide), h 4 (by decide)]

/-- The configuration that INIT latches is the record it checked. -/
theorem configCheck_latched (s : State) :
    configCheck s.params (latchConfig s).cfgRecord = configCheck s.params s.cfgPort := by
  refine configCheck_congr fun i hi => ?_
  have : i = 0 ∨ i = 1 ∨ i = 2 ∨ i = 3 ∨ i = 4 := by omega
  rcases this with rfl | rfl | rfl | rfl | rfl <;> simp [State.cfgRecord]

/-! ### The checks of INIT (41_engine.md R133) -/

theorem code_eq_iff {x : BitVec 3} (n : Nat) (hn : n < 8) : x = BitVec.ofNat 3 n ↔ x.toNat = n := by
  rw [BitVec.toNat_eq, BitVec.toNat_ofNat, Nat.mod_eq_of_lt (show n < 2 ^ 3 from hn)]

/-- A check fails exactly when a row of the FDETAIL table applies, and it reports the first such row
(60_exceptions.md R252, R255). -/
theorem configCheck_some {b : Params} {c : CfgRecord} {d : FaultDetail} (h : configCheck b c = some d) :
    ConfigFault b c d ∧ ∀ d', ConfigFault b c d' → d.bits.toNat ≤ d'.bits.toNat := by
  have e1 := @code_eq_iff (cfgSchemeCode (recordWord c 0)) 1 (by decide)
  have e2 := @code_eq_iff (cfgSchemeCode (recordWord c 0)) 2 (by decide)
  have e3 := @code_eq_iff (cfgSchemeCode (recordWord c 0)) 3 (by decide)
  unfold configCheck Config.histBitsMax at h
  dsimp only at h
  repeat' split at h
  all_goals first
    | (cases h
       refine ⟨by simp only [ConfigFault, e1, e2, e3]; omega, fun d' hd' => ?_⟩
       cases d' <;> simp only [ConfigFault, e1, e2, e3] at hd' <;>
         first | (exact absurd hd' (by omega)) | (show (_ : Nat) ≤ _; decide))
    | cases h

/-- No check fails exactly when no row of the FDETAIL table applies. -/
theorem configCheck_none {b : Params} {c : CfgRecord} (h : configCheck b c = none) (d : FaultDetail) :
    ¬ConfigFault b c d := by
  have e1 := @code_eq_iff (cfgSchemeCode (recordWord c 0)) 1 (by decide)
  have e2 := @code_eq_iff (cfgSchemeCode (recordWord c 0)) 2 (by decide)
  have e3 := @code_eq_iff (cfgSchemeCode (recordWord c 0)) 3 (by decide)
  intro hd
  unfold configCheck Config.histBitsMax at h
  dsimp only at h
  repeat' split at h
  all_goals first
    | (exact absurd h (Option.some_ne_none _))
    | (cases d <;> simp only [ConfigFault, e1, e2, e3] at hd <;>
        first | (exact absurd hd (by assumption)) | omega)

/-- The scheme a code below 4 names. -/
theorem schemeOfCode_of_lt {x : BitVec 3} (h : x.toNat < 4) :
    (x = 0#3 ∧ schemeOfCode x = some .static) ∨ (x = 1#3 ∧ schemeOfCode x = some .gshare) ∨
      (x = 2#3 ∧ schemeOfCode x = some .tournament) ∨ (x = 3#3 ∧ schemeOfCode x = some .custom) := by
  revert x; decide

/-- The code of a scheme (10_state.md R25). -/
theorem schemeOfCode_eq_some {x : BitVec 3} :
    (schemeOfCode x = some .static → x = 0#3) ∧ (schemeOfCode x = some .gshare → x = 1#3) ∧
      (schemeOfCode x = some .tournament → x = 2#3) ∧ (schemeOfCode x = some .custom → x = 3#3) := by
  revert x; decide

/-! ### What INIT creates (41_engine.md R134) -/

/-- INIT on a legal record creates the scheme state that the record selects, with its invariants. -/
theorem createScheme_ok {s : State} (h : configCheck s.params s.cfgPort = none) :
    ∃ x, createScheme s.params s.cfgPort = some x ∧ SchemeOk (latchConfig s) x := by
  have hlt : (cfgSchemeCode (recordWord s.cfgPort 0)).toNat < 4 := by
    have := configCheck_none h .schemeUnrecognized
    simp only [ConfigFault] at this; omega
  have zero : ∀ (k w : Nat), 1 ≤ w → RowOk k w (List.replicate (k + 1) 0) := fun k w hw =>
    ⟨List.length_replicate, fun x hx => by have := List.eq_of_mem_replicate hx; omega⟩
  rcases schemeOfCode_of_lt hlt with ⟨-, h1⟩ | ⟨-, h1⟩ | ⟨-, h1⟩ | ⟨h0, h1⟩
  · exact ⟨.static, by simp [createScheme, h1], by simp [SchemeOk, State.activeScheme, h1]⟩
  · refine ⟨.gshare (createGShare s.params s.cfgPort), by simp [createScheme, h1], ?_⟩
    simp only [SchemeOk, State.activeScheme, latchConfig_cfg0, h1]
    exact ⟨Nat.two_pow_pos _, rfl, Table.create_wf _ _⟩
  · refine ⟨.tournament (createTournament s.params s.cfgPort), by simp [createScheme, h1], ?_⟩
    simp only [SchemeOk, State.activeScheme, latchConfig_cfg0, h1]
    exact ⟨Nat.two_pow_pos _, ⟨rfl, Table.create_wf _ _⟩, ⟨rfl, Table.create_wf _ _⟩, ⟨rfl, Table.create_wf _ _⟩,
      ⟨rfl, Table.create_wf _ _⟩, fun _ => Nat.two_pow_pos _⟩
  · refine ⟨.perceptron (createPerceptron s.cfgPort), by simp [createScheme, h1], ?_⟩
    simp only [SchemeOk, State.activeScheme, latchConfig_cfg0, h1]
    have hw : 1 ≤ (recordWord s.cfgPort 4).toNat := by
      have := configCheck_none h .wRange
      simp only [ConfigFault, h0, true_and] at this; omega
    exact ⟨⟨List.length_replicate, ⟨rfl, Table.create_wf _ _⟩, fun _ => zero _ _ hw, Nat.zero_le _⟩,
      fun hp => by simp at hp⟩

/-- In a configured block with the perceptron, E, K and W are at least 1. -/
theorem custom_bounds {s : State} (h : configCheck s.params s.cfgRecord = none) (hc : s.activeScheme = some .custom) :
    1 ≤ s.percRows ∧ 1 ≤ s.percHist ∧ 1 ≤ s.percClamp := by
  have h0 : cfgSchemeCode s.cfg0 = 3#3 := schemeOfCode_eq_some.2.2.2 hc
  have he := configCheck_none h .eRange
  have hk := configCheck_none h .kRange
  have hw := configCheck_none h .wRange
  simp only [ConfigFault, State.cfgRecord, recordWord_recordOf_0, recordWord_recordOf_1, recordWord_recordOf_2,
    recordWord_recordOf_4, h0, true_and] at he hk hw
  simp only [State.percRows, State.percHist, State.percClamp]
  omega

/-- In a configured block the history widths that the scheme uses are 1 to 30. -/
theorem hist_bounds {s : State} (h : configCheck s.params s.cfgRecord = none) :
    (s.activeScheme = some .gshare → 1 ≤ s.histBits ∧ s.histBits ≤ 30) ∧
    (s.activeScheme = some .tournament → (1 ≤ s.histBits ∧ s.histBits ≤ 30) ∧ (1 ≤ s.localBits ∧ s.localBits ≤ 30) ∧
      1 ≤ s.pcBits ∧ s.pcBits ≤ 30) := by
  have hh := configCheck_none h .hRange
  have hl := configCheck_none h .lRange
  have hp := configCheck_none h .pRange
  simp only [ConfigFault, State.cfgRecord, recordWord_recordOf_0] at hh hl hp
  simp only [State.histBits, State.localBits, State.pcBits]
  constructor
  · intro hc
    have h0 : cfgSchemeCode s.cfg0 = 1#3 := schemeOfCode_eq_some.2.1 hc
    simp only [h0, true_or, true_and] at hh
    omega
  · intro hc
    have h0 : cfgSchemeCode s.cfg0 = 2#3 := schemeOfCode_eq_some.2.2.1 hc
    simp only [h0, or_true, true_and] at hh hl hp
    omega

/-! ### The scheme dispatch in a configured block (41_engine.md R136, R138) -/

/-- The scheme state of a configured block is the variant its configuration names. -/
theorem SchemeOk.cases {s : State} {x : SchemeState} (h : SchemeOk s x) :
    (s.activeScheme = some .static ∧ x = .static) ∨
    (∃ g, s.activeScheme = some .gshare ∧ x = .gshare g ∧ GShareOk s.histBits g) ∨
    (∃ t, s.activeScheme = some .tournament ∧ x = .tournament t ∧
      TournamentOk s.histBits s.localBits s.pcBits t) ∨
    (∃ q, s.activeScheme = some .custom ∧ x = .perceptron q ∧ PerceptronOk s.percRows s.percHist s.percClamp q ∧
      (s.opState = .pending → LatchOk s.percRows s.percHist (cfgPercHash s.cfg0) s.pendPc q)) := by
  unfold SchemeOk at h
  split at h
  · exact .inl ⟨by assumption, rfl⟩
  · exact .inr (.inl ⟨_, by assumption, rfl, h⟩)
  · exact .inr (.inr (.inl ⟨_, by assumption, rfl, h⟩))
  · exact .inr (.inr (.inr ⟨_, by assumption, rfl, h.1, h.2⟩))
  · exact h.elim

/-- A scheme state that satisfies the invariants of its configuration is `SchemeOk`, outside PENDING or with its
latches. -/
theorem schemeOk_static {s : State} (ha : s.activeScheme = some .static) : SchemeOk s .static := by
  unfold SchemeOk; rw [ha]; trivial

theorem schemeOk_gshare {s : State} {g : GShare} (ha : s.activeScheme = some .gshare) (hg : GShareOk s.histBits g) :
    SchemeOk s (.gshare g) := by
  unfold SchemeOk; rw [ha]; exact hg

theorem schemeOk_tournament {s : State} {t : Tournament} (ha : s.activeScheme = some .tournament)
    (ht : TournamentOk s.histBits s.localBits s.pcBits t) : SchemeOk s (.tournament t) := by
  unfold SchemeOk; rw [ha]; exact ht

theorem schemeOk_perceptron {s : State} {q : Perceptron} (ha : s.activeScheme = some .custom)
    (hq : PerceptronOk s.percRows s.percHist s.percClamp q)
    (hl : s.opState = .pending → LatchOk s.percRows s.percHist (cfgPercHash s.cfg0) s.pendPc q) :
    SchemeOk s (.perceptron q) := by
  unfold SchemeOk; rw [ha]; exact ⟨hq, hl⟩

/-- `SchemeOk` speaks of the configuration and, in PENDING, of the pending pc; of nothing else. -/
theorem SchemeOk.transfer {s s' : State} {x : SchemeState} (h : SchemeOk s x) (h0 : s'.cfg0 = s.cfg0)
    (h1 : s'.cfg1 = s.cfg1) (h2 : s'.cfg2 = s.cfg2) (h4 : s'.cfg4 = s.cfg4)
    (hp : s'.opState = .pending → s.opState = .pending ∧ s'.pendPc = s.pendPc) : SchemeOk s' x := by
  have ea : s'.activeScheme = s.activeScheme := by rw [State.activeScheme, h0]; rfl
  have eh : s'.histBits = s.histBits := by rw [State.histBits, h0]; rfl
  have el : s'.localBits = s.localBits := by rw [State.localBits, h0]; rfl
  have ep : s'.pcBits = s.pcBits := by rw [State.pcBits, h0]; rfl
  have ee : s'.percRows = s.percRows := by rw [State.percRows, h1]; rfl
  have ek : s'.percHist = s.percHist := by rw [State.percHist, h2]; rfl
  have ew : s'.percClamp = s.percClamp := by rw [State.percClamp, h4]; rfl
  rcases h.cases with ⟨ha, rfl⟩ | ⟨g, ha, rfl, hg⟩ | ⟨t, ha, rfl, ht⟩ | ⟨q, ha, rfl, hq, hl⟩
  · exact schemeOk_static (ea.trans ha)
  · exact schemeOk_gshare (ea.trans ha) (eh ▸ hg)
  · exact schemeOk_tournament (ea.trans ha) (by rw [eh, el, ep]; exact ht)
  · refine schemeOk_perceptron (ea.trans ha) (by rw [ee, ek, ew]; exact hq) fun hpend => ?_
    obtain ⟨h5, h6⟩ := hp hpend
    rw [ee, ek, h0, h6]
    exact hl h5

/-- In a configured block the PREDICT body is never out of range, and the state it leaves, pending on the pc, keeps
the invariants of its scheme. -/
theorem schemePredict_ok {s : State} (h : Latched s) (pc : Word) :
    ∃ p x, schemePredict s pc = some (p, some x) ∧
      SchemeOk { s with scheme := some x, pendPc := pc, opState := .pending } x := by
  obtain ⟨hc, x, hx, hok⟩ := h
  rcases hok.cases with ⟨ha, rfl⟩ | ⟨g, ha, rfl, hg⟩ | ⟨t, ha, rfl, ht⟩ | ⟨q, ha, rfl, hq, -⟩
  · exact ⟨true, .static, by simp [schemePredict, ha, hx, staticPredict], schemeOk_static ha⟩
  · exact ⟨_, .gshare g, by simp only [schemePredict, ha, hx, gsharePredict_spec hg.pht.1]; rfl, schemeOk_gshare ha hg⟩
  · exact ⟨_, .tournament t, by simp only [schemePredict, ha, hx, tourPredict_spec ht]; rfl,
      schemeOk_tournament ha ht⟩
  · obtain ⟨he, -, -⟩ := custom_bounds hc ha
    exact ⟨_, .perceptron _, by simp only [schemePredict, ha, hx, percPredict_spec he hq]; rfl,
      schemeOk_perceptron ha (percLatch_ok hq _ _) fun _ => ⟨rfl, rfl, hq.phr⟩⟩

/-- In a configured block the TRAIN body is never out of range, and the state it leaves, ready, keeps the invariants
of its scheme. -/
theorem schemeTrain_ok {s : State} (h : Latched s) (pc : Word) (o : Bool) :
    ∃ x, schemeTrain s pc o = some (some x) ∧ SchemeOk { s with scheme := some x, opState := .ready } x := by
  obtain ⟨hc, x, hx, hok⟩ := h
  rcases hok.cases with ⟨ha, rfl⟩ | ⟨g, ha, rfl, hg⟩ | ⟨t, ha, rfl, ht⟩ | ⟨q, ha, rfl, hq, -⟩
  · exact ⟨.static, by simp [schemeTrain, ha, hx, staticTrain], schemeOk_static ha⟩
  · obtain ⟨g', h1, h2, -⟩ := gshareTrain_spec hg pc o
    exact ⟨.gshare g', by simp [schemeTrain, ha, hx, h1], schemeOk_gshare ha h2⟩
  · obtain ⟨t', h1, h2, -⟩ := tourTrain_spec ht (cfgTourXor s.cfg0) pc o
    exact ⟨.tournament t', by simp [schemeTrain, ha, hx, h1], schemeOk_tournament ha h2⟩
  · obtain ⟨he, hk, hw⟩ := custom_bounds hc ha
    obtain ⟨wt, h1, h2, -⟩ := percTrain_spec he hk hw hq s.percTheta (cfgPercHash s.cfg0) pc o
    exact ⟨.perceptron { q with wt := wt, phr := percShift q.phr o }, by simp [schemeTrain, ha, hx, h1],
      schemeOk_perceptron ha h2 fun hp => by cases hp⟩

/-! ### The shared operations and the invariant -/

/-- A latched configuration stays latched in any state with the same parameters, configuration and scheme state. -/
theorem Latched.transfer {s s' : State} (h : Latched s) (hb : s'.params = s.params)
    (hr : s'.cfgRecord = s.cfgRecord) (hx : s'.scheme = s.scheme) (h0 : s'.cfg0 = s.cfg0)
    (h1 : s'.cfg1 = s.cfg1) (h2 : s'.cfg2 = s.cfg2) (h4 : s'.cfg4 = s.cfg4)
    (hp : s'.opState = .pending → s.opState = .pending ∧ s'.pendPc = s.pendPc) : Latched s' := by
  obtain ⟨hc, x, hs, hok⟩ := h
  exact ⟨by rw [hb, hr]; exact hc, x, hx.trans hs, hok.transfer h0 h1 h2 h4 hp⟩

/-- The response just given satisfies the invariant's clause on it. -/
theorem respOk_respond {p : Bool} {s : State} (h : p = true → s.opState = .pending) : RespOk (respond p s) := by
  intro r hr
  cases hr
  exact ⟨respStatus_respWord _ _, fun hp => h (by simpa using hp)⟩

/-- Taking a presentation off the list, and holding another record, keep the invariant: it does not speak of them. -/
theorem BlockInv.ports {s : State} (h : BlockInv s) (rest : List Input) (c : CfgRecord) :
    BlockInv { s with inputs := rest, cfgPort := c } :=
  ⟨h.params, ⟨h.faultRecord.code, h.faultRecord.detail, h.faultRecord.word⟩, h.unconfigured,
    fun hs => (h.configured hs).transfer rfl rfl rfl rfl rfl rfl rfl fun hp => ⟨hp, rfl⟩,
    fun hs => (h.faulted hs).imp id fun hl => hl.transfer rfl rfl rfl rfl rfl rfl rfl fun hp => ⟨hp, rfl⟩,
    h.resp⟩

/-- rst reaches a state that keeps the invariant, in every legal build. -/
theorem inv_applyRst {s : State} (h : ParamsOk s.params) : BlockInv (applyRst s) where
  params := h
  faultRecord := ⟨by simp, by simp, by simp⟩
  unconfigured _ := ⟨rfl, rfl, rfl, rfl, rfl, rfl, rfl⟩
  configured hs := by simp at hs
  faulted hs := by simp at hs
  resp r hr := by simp at hr

/-- The fault entry keeps the invariant, when its detail goes with its code (60_exceptions.md R252). -/
theorem inv_raiseFault {s t : State} {code : FaultCode} {d : FaultDetail} {w : CmdWord} (h : BlockInv s)
    (hc : code ≠ .noFault) (hd : code = .configError ↔ d ≠ .noDetail) (hr : raiseFault code d w s = .next t) :
    BlockInv t := by
  cases hr
  refine ⟨h.params, ⟨by simpa using hc, hd, fun h => absurd h hc⟩, fun h => by simp at h, fun h => by simp at h,
    fun _ => ?_, respOk_respond fun h => by cases h⟩
  have latched (hl : Latched s) :
      Latched (respond false { s with fcode := code, fdetail := d, fcmd := w, opState := .faulted }) :=
    hl.transfer rfl rfl rfl rfl rfl rfl rfl fun hp => by simp at hp
  cases hs : s.opState with
  | unconfigured => exact .inl (h.unconfigured hs)
  | ready => exact .inr (latched (h.configured (.inl hs)))
  | pending => exact .inr (latched (h.configured (.inr hs)))
  | faulted => exact (h.faulted hs).imp id latched

/-- A refused command keeps the invariant (41_engine.md R132). -/
theorem inv_refuse {s t : State} (h : BlockInv s) (hr : refuse s = .next t) : BlockInv t := by
  cases hr
  exact ⟨h.params, ⟨h.faultRecord.code, h.faultRecord.detail, h.faultRecord.word⟩, h.unconfigured,
    fun hs' => (h.configured hs').transfer rfl rfl rfl rfl rfl rfl rfl fun hp => ⟨hp, rfl⟩,
    fun hs => (h.faulted hs).imp id fun hl => hl.transfer rfl rfl rfl rfl rfl rfl rfl fun hp => ⟨hp, rfl⟩,
    respOk_respond fun h => by cases h⟩

end Sys2Proof.Machine
end

