-- ==== Sys2Proof/Laws/PerInstr.lean ====
section
/-! SUPPORT. The per-instruction family FieldsWellFormed (LAWS.json): the word of every command has well-formed fields,
and they are the fields that the command has (30_encoding.md R81, R84, R87). -/

namespace Sys2Proof.Laws.FieldsWellFormed

/-- The fields read back from the word of a command are its fields, and pass every check on a word. -/
def Statement (i : Instr) : Prop :=
  CmdFields.ofWord (encode i) = i.fields ∧ i.fields.wellFormed = true

theorem fields_wellFormed (i : Instr) : i.fields.wellFormed = true := by
  cases i <;>
    simp [Instr.fields, CmdFields.wellFormed, CmdFields.opOk, CmdFields.rsvOk, CmdFields.outOk, CmdFields.pcOk]

/-- INIT. -/
theorem init : Statement .init := by
  constructor <;> decide

/-- PREDICT. -/
theorem predict (pc : Word) : Statement (.predict pc) := by
  obtain ⟨h1, h2, h3, h4⟩ := fields_halves pc 2#32
  refine ⟨?_, fields_wellFormed _⟩
  rw [encode_predict, CmdFields.ofWord, h1, h2, h3, h4]
  rfl

/-- TRAIN. -/
theorem train (pc : Word) (o : Bool) : Statement (.train pc o) := by
  obtain ⟨h1, h2, h3, h4⟩ := fields_halves pc (if o then 11#32 else 3#32)
  refine ⟨?_, fields_wellFormed _⟩
  rw [encode_train, CmdFields.ofWord, h1, h2, h3, h4]
  cases o <;> rfl

end Sys2Proof.Laws.FieldsWellFormed
end

