-- ==== Sys2Proof/Laws/Steps.lean ====
section
/-! SUPPORT. What a step and a command can do, said once (41_engine.md R130 to R140): every case of a next state, with
its guards; and how runs of steps compose. -/

namespace Sys2Proof.Machine

/-! ### The bodies on any state, in range or not: what they write when they answer -/

/-- Perceptron PREDICT writes the two latches and nothing else (44_perceptron.md R212). -/
theorem percPredict_some {e k : Nat} {x : Bool} {q : Perceptron} {pc : Word} {r : Bool × Perceptron}
    (h : percPredict e k x q pc = some r) : r.2 = { q with lastPred := r.1, lastMag := r.2.lastMag } := by
  simp only [percPredict, Option.bind_eq_bind, Option.bind_eq_some_iff, Option.pure_def, Option.some.injEq] at h
  obtain ⟨_, _, _, _, rfl⟩ := h
  rfl

/-- GShare TRAIN writes one entry and the history (42_gshare.md R162). -/
theorem gshareTrain_some {h : Nat} {g g' : GShare} {pc : Word} {o : Bool} (he : gshareTrain h g pc o = some g') :
    ∃ v, g.pht.read (gidx h g.ghr pc) = some v ∧
      g.pht.write (gidx h g.ghr pc) (ctrTrain v o) = some g'.pht ∧ g'.ghr = histShift g.ghr o h := by
  simp only [gshareTrain, Option.bind_eq_bind, Option.bind_eq_some_iff, Option.pure_def, Option.some.injEq] at he
  obtain ⟨v, h1, _, h2, rfl⟩ := he
  exact ⟨v, h1, h2, rfl⟩

/-- Tournament TRAIN writes at most one entry of each table, and the global history (43_tournament.md R185). -/
theorem tourTrain_some {h l p : Nat} {x : Bool} {t t' : Tournament} {pc : Word} {o : Bool}
    (he : tourTrain h l p x t pc o = some t') :
    ∃ lh gv lv, t.lht.read (lslot p pc) = some lh ∧ t.gpht.read (tgidx h x t.ghr pc) = some gv ∧
      t.lpht.read lh = some lv ∧
      trainChooser t.chooser t.ghr (ctrPredict gv) (ctrPredict lv) o = some t'.chooser ∧
      t.gpht.write (tgidx h x t.ghr pc) (ctrTrain gv o) = some t'.gpht ∧
      t.lpht.write lh (ctrTrain lv o) = some t'.lpht ∧
      t.lht.write (lslot p pc) (histShift lh o l) = some t'.lht ∧ t'.ghr = histShift t.ghr o h := by
  simp only [tourTrain, Option.bind_eq_bind, Option.bind_eq_some_iff, Option.pure_def, Option.some.injEq] at he
  obtain ⟨lh, h1, gv, h2, lv, h3, _, h4, _, h5, _, h6, _, h7, rfl⟩ := he
  exact ⟨lh, gv, lv, h1, h2, h3, h4, h5, h6, h7, rfl⟩

/-- The chooser's update writes at most the entry at the raw history (43_tournament.md R185). -/
theorem trainChooser_read_ne {c c' : Table Counter} {ci j : Nat} {gp lp o : Bool}
    (h : trainChooser c ci gp lp o = some c') (hj : j ≠ ci) : c'.read j = c.read j := by
  unfold trainChooser at h
  split at h
  · cases h; rfl
  · simp only [Option.bind_eq_bind, Option.bind_eq_some_iff] at h
    obtain ⟨_, _, h⟩ := h
    exact Table.read_write_ne h hj

/-- Perceptron TRAIN writes at most the selected row, and the history (44_perceptron.md R215, R217). -/
theorem percTrain_some {e k theta w : Nat} {x : Bool} {q q' : Perceptron} {pc : Word} {o : Bool}
    (h : percTrain e k theta w x q pc o = some q') :
    q' = { q with wt := q'.wt, phr := percShift q.phr o } ∧
      ∀ r, r ≠ prow e x q.phr pc → q'.wt.read r = q.wt.read r := by
  simp only [percTrain, Option.bind_eq_bind, Option.bind_eq_some_iff, Option.pure_def, Option.some.injEq] at h
  obtain ⟨wt, h, rfl⟩ := h
  refine ⟨rfl, fun r hr => ?_⟩
  unfold trainWeights at h
  split at h
  · simp only [Option.bind_eq_bind, Option.bind_eq_some_iff] at h
    obtain ⟨_, _, h⟩ := h
    split at h
    · exact Table.read_write_ne h hr
    · cases h
  · cases h; rfl

/-! ### The scheme dispatch on any state -/

/-- What the PREDICT body answers, scheme by scheme (41_engine.md R136). -/
theorem schemePredict_some {s : State} {pc : Word} {p : Bool} {x : Option SchemeState}
    (h : schemePredict s pc = some (p, x)) :
    (s.activeScheme = some .static ∧ p = true ∧ x = s.scheme) ∨
    (∃ g, s.activeScheme = some .gshare ∧ s.scheme = some (.gshare g) ∧ gsharePredict s.histBits g pc = some p ∧
      x = s.scheme) ∨
    (∃ t, s.activeScheme = some .tournament ∧ s.scheme = some (.tournament t) ∧
      tourPredict s.histBits s.pcBits (cfgTourXor s.cfg0) t pc = some p ∧ x = s.scheme) ∨
    (∃ q q', s.activeScheme = some .custom ∧ s.scheme = some (.perceptron q) ∧
      percPredict s.percRows s.percHist (cfgPercHash s.cfg0) q pc = some (p, q') ∧ x = some (.perceptron q')) := by
  unfold schemePredict at h
  split at h
  · cases h; exact .inl ⟨by assumption, rfl, rfl⟩
  · obtain ⟨_, h1, h2⟩ := Option.map_eq_some_iff.mp h
    cases h2
    exact .inr (.inl ⟨_, by assumption, by assumption, h1, by simp only [*]⟩)
  · obtain ⟨_, h1, h2⟩ := Option.map_eq_some_iff.mp h
    cases h2
    exact .inr (.inr (.inl ⟨_, by assumption, by assumption, h1, by simp only [*]⟩))
  · obtain ⟨_, h1, h2⟩ := Option.map_eq_some_iff.mp h
    cases h2
    exact .inr (.inr (.inr ⟨_, _, by assumption, by assumption, h1, rfl⟩))
  · cases h

/-- What the TRAIN body leaves, scheme by scheme (41_engine.md R138). -/
theorem schemeTrain_some {s : State} {pc : Word} {o : Bool} {x : Option SchemeState}
    (h : schemeTrain s pc o = some x) :
    (s.activeScheme = some .static ∧ x = s.scheme) ∨
    (∃ g g', s.activeScheme = some .gshare ∧ s.scheme = some (.gshare g) ∧
      gshareTrain s.histBits g pc o = some g' ∧ x = some (.gshare g')) ∨
    (∃ t t', s.activeScheme = some .tournament ∧ s.scheme = some (.tournament t) ∧
      tourTrain s.histBits s.localBits s.pcBits (cfgTourXor s.cfg0) t pc o = some t' ∧ x = some (.tournament t')) ∨
    (∃ q q', s.activeScheme = some .custom ∧ s.scheme = some (.perceptron q) ∧
      percTrain s.percRows s.percHist s.percTheta s.percClamp (cfgPercHash s.cfg0) q pc o = some q' ∧
      x = some (.perceptron q')) := by
  unfold schemeTrain at h
  split at h
  · cases h; exact .inl ⟨by assumption, rfl⟩
  · obtain ⟨_, h1, rfl⟩ := Option.map_eq_some_iff.mp h
    exact .inr (.inl ⟨_, _, by assumption, by assumption, h1, rfl⟩)
  · obtain ⟨_, h1, rfl⟩ := Option.map_eq_some_iff.mp h
    exact .inr (.inr (.inl ⟨_, _, by assumption, by assumption, h1, rfl⟩))
  · obtain ⟨_, h1, rfl⟩ := Option.map_eq_some_iff.mp h
    exact .inr (.inr (.inr ⟨_, _, by assumption, by assumption, h1, rfl⟩))
  · cases h

/-! ### The commands -/

/-- Every next state of INIT (41_engine.md R133). -/
theorem execInit_next {s t : State} (h : exec .init s = .next t) :
    (s.opState = .faulted ∧ t = respond false s) ∨
    ((s.opState = .ready ∨ s.opState = .pending) ∧ raiseFault .reinit .noDetail (encode .init) s = .next t) ∨
    (∃ d, s.opState = .unconfigured ∧ configCheck s.params s.cfgPort = some d ∧
      raiseFault .configError d (encode .init) s = .next t) ∨
    (s.opState = .unconfigured ∧ configCheck s.params s.cfgPort = none ∧ t = respond false (latchConfig s)) := by
  have h : execInit s = .next t := h
  unfold execInit at h
  cases hs : s.opState <;> simp only [hs] at h
  · cases hc : configCheck s.params s.cfgPort <;> simp only [hc] at h
    · cases h; exact .inr (.inr (.inr ⟨rfl, rfl, rfl⟩))
    · exact .inr (.inr (.inl ⟨_, rfl, rfl, h⟩))
  · exact .inr (.inl ⟨.inl rfl, h⟩)
  · exact .inr (.inl ⟨.inr rfl, h⟩)
  · cases h; exact .inl ⟨rfl, rfl⟩

/-- Every next state of PREDICT (41_engine.md R137). -/
theorem execPredict_next {s t : State} {pc : Word} (h : exec (.predict pc) s = .next t) :
    (s.opState = .faulted ∧ t = respond false s) ∨
    (s.opState = .unconfigured ∧ raiseFault .notConfigured .noDetail (encode (.predict pc)) s = .next t) ∨
    (s.opState = .pending ∧ raiseFault .predictWhilePending .noDetail (encode (.predict pc)) s = .next t) ∨
    (∃ p x, s.opState = .ready ∧ schemePredict s pc = some (p, x) ∧
      t = respond p { s with scheme := x, pendPc := pc, opState := .pending }) := by
  have h : execPredict pc s = .next t := h
  unfold execPredict at h
  cases hs : s.opState <;> simp only [hs] at h
  · exact .inr (.inl ⟨rfl, h⟩)
  · split at h
    · cases h
    · rename_i p x hp; cases h; exact .inr (.inr (.inr ⟨p, x, rfl, hp, rfl⟩))
  · exact .inr (.inr (.inl ⟨rfl, h⟩))
  · cases h; exact .inl ⟨rfl, rfl⟩

/-- Every next state of TRAIN (41_engine.md R140). -/
theorem execTrain_next {s t : State} {pc : Word} {o : Bool} (h : exec (.train pc o) s = .next t) :
    (s.opState = .faulted ∧ t = respond false s) ∨
    (s.opState = .unconfigured ∧ raiseFault .notConfigured .noDetail (encode (.train pc o)) s = .next t) ∨
    (s.opState = .ready ∧ raiseFault .trainWithoutPredict .noDetail (encode (.train pc o)) s = .next t) ∨
    (s.opState = .pending ∧ pc ≠ s.pendPc ∧
      raiseFault .trainPcMismatch .noDetail (encode (.train pc o)) s = .next t) ∨
    (∃ x, s.opState = .pending ∧ pc = s.pendPc ∧ schemeTrain s pc o = some x ∧
      t = respond false { s with scheme := x, opState := .ready }) := by
  have h : execTrain pc o s = .next t := h
  unfold execTrain at h
  cases hs : s.opState <;> simp only [hs] at h
  · exact .inr (.inl ⟨rfl, h⟩)
  · exact .inr (.inr (.inl ⟨rfl, h⟩))
  · split at h
    · rename_i hp; exact .inr (.inr (.inr (.inl ⟨rfl, hp, h⟩)))
    · rename_i hp
      split at h
      · cases h
      · rename_i x hx; cases h
        exact .inr (.inr (.inr (.inr ⟨x, rfl, by simpa using hp, hx, rfl⟩)))
  · cases h; exact .inl ⟨rfl, rfl⟩

/-- PREDICT in READY (41_engine.md R137). -/
theorem exec_predict_ready {s : State} {pc : Word} {p : Bool} {x : Option SchemeState} (hs : s.opState = .ready)
    (hp : schemePredict s pc = some (p, x)) :
    exec (.predict pc) s = .next (respond p { s with scheme := x, pendPc := pc, opState := .pending }) := by
  show execPredict pc s = _
  simp only [execPredict, hs, hp]

/-- TRAIN of the pending pc (41_engine.md R140). -/
theorem exec_train_pending {s : State} {o : Bool} {x : Option SchemeState} (hs : s.opState = .pending)
    (hx : schemeTrain s s.pendPc o = some x) :
    exec (.train s.pendPc o) s = .next (respond false { s with scheme := x, opState := .ready }) := by
  show execTrain s.pendPc o s = _
  simp only [execTrain, hs, ne_eq, not_true_eq_false, if_false, hx]

/-! ### The invariant, command by command -/

/-- Outside FAULTED no fault is recorded (60_exceptions.md R251). -/
theorem BlockInv.noFault {s : State} (h : BlockInv s) (hs : s.opState ≠ .faulted) : s.fcode = .noFault := by
  by_contra hne
  exact hs (h.faultRecord.code.mpr hne)

/-- A successful INIT reaches a state that keeps the invariant. -/
theorem inv_latchConfig {s : State} (h : BlockInv s) (hs : s.opState = .unconfigured)
    (hc : configCheck s.params s.cfgPort = none) : BlockInv (respond false (latchConfig s)) := by
  obtain ⟨x, h1, h2⟩ := createScheme_ok hc
  have hn : s.fcode = .noFault := h.noFault (by rw [hs]; decide)
  have hl : Latched (latchConfig s) := ⟨(configCheck_latched s).trans hc, x, h1, h2⟩
  exact ⟨h.params, ⟨by simp [hn], h.faultRecord.detail, h.faultRecord.word⟩, fun h => by simp at h,
    fun _ => hl.transfer rfl rfl rfl rfl rfl rfl rfl fun hp => by simp at hp, fun h => by simp at h,
    respOk_respond fun h => by cases h⟩

/-- A PREDICT that completes reaches a state that keeps the invariant. -/
theorem inv_predict {s : State} {pc : Word} {p : Bool} {x : Option SchemeState} (h : BlockInv s)
    (hs : s.opState = .ready) (hp : schemePredict s pc = some (p, x)) :
    BlockInv (respond p { s with scheme := x, pendPc := pc, opState := .pending }) := by
  have hl := h.configured (.inl hs)
  obtain ⟨p', x', h1, h2⟩ := schemePredict_ok hl pc
  rw [hp] at h1
  cases h1
  have hn : s.fcode = .noFault := h.noFault (by rw [hs]; decide)
  exact ⟨h.params, ⟨by simp [hn], h.faultRecord.detail, h.faultRecord.word⟩, fun h => by simp at h,
    fun _ => ⟨hl.1, x', rfl, h2.transfer rfl rfl rfl rfl fun _ => ⟨rfl, rfl⟩⟩, fun h => by simp at h,
    respOk_respond fun _ => rfl⟩

/-- A TRAIN that completes reaches a state that keeps the invariant. -/
theorem inv_train {s : State} {pc : Word} {o : Bool} {x : Option SchemeState} (h : BlockInv s)
    (hs : s.opState = .pending) (hx : schemeTrain s pc o = some x) :
    BlockInv (respond false { s with scheme := x, opState := .ready }) := by
  have hl := h.configured (.inr hs)
  obtain ⟨x', h1, h2⟩ := schemeTrain_ok hl pc o
  rw [hx] at h1
  cases h1
  have hn : s.fcode = .noFault := h.noFault (by rw [hs]; decide)
  exact ⟨h.params, ⟨by simp [hn], h.faultRecord.detail, h.faultRecord.word⟩, fun h => by simp at h,
    fun _ => ⟨hl.1, x', rfl, h2.transfer rfl rfl rfl rfl fun h => by simp at h⟩, fun h => by simp at h,
    respOk_respond fun h => by cases h⟩

/-! ### The step -/

/-- Every next state of a step (41_engine.md R130, R132; 70_reset_and_hazards.md R290). -/
theorem step_next {s t : State} (h : step s = .next t) :
    (s.inputs = [] ∧ t = s) ∨
    (∃ rest, s.inputs = .rst :: rest ∧ t = applyRst { s with inputs := rest }) ∨
    (∃ w c rest, s.inputs = .command w c :: rest ∧
      ((s.opState = .faulted ∧ t = respond false { s with inputs := rest, cfgPort := c }) ∨
       (s.opState ≠ .faulted ∧ decode w = none ∧
          raiseFault .illegalCommand .noDetail w { s with inputs := rest, cfgPort := c } = .next t) ∨
       (∃ i, s.opState ≠ .faulted ∧ decode w = some i ∧
          exec i { s with inputs := rest, cfgPort := c } = .next t))) := by
  have h : takeNext s = .next t := h
  unfold takeNext at h
  split at h
  · cases h; exact .inl ⟨by assumption, rfl⟩
  · rename_i x rest hx
    cases x with
    | rst => cases h; exact .inr (.inl ⟨rest, hx, rfl⟩)
    | command w c =>
      refine .inr (.inr ⟨w, c, rest, hx, ?_⟩)
      simp only [takeInput, runCommand] at h
      split at h
      · cases h; exact .inl ⟨by assumption, rfl⟩
      · split at h
        · exact .inr (.inl ⟨by assumption, by assumption, h⟩)
        · exact .inr (.inr ⟨_, by assumption, by assumption, h⟩)

/-! ### Runs -/

theorem run_zero (s : State) : run 0 s = .next s := rfl

theorem run_succ {s t : State} (h : step s = .next t) (n : Nat) : run (n + 1) s = run n t := by
  have h' : Sys2Proof.core.step s = .next t := h
  refine (Host.Core.run.eq_2 Sys2Proof.core s n).trans ?_
  rw [h']

end Sys2Proof.Machine
end

