-- ==== Sys2Proof/Tests/Slice0.lean ====
section
/-! SUPPORT. Tests with expected values from spec/ (mostly 95_test_vectors.md), and for every obligation that has
hypotheses one witness, `test_witness_…`: concrete values that meet all of them together. -/

namespace Sys2Proof.Tests

open Sys2Proof Sys2Proof.Machine

/-! ### Ill-formed words (30_encoding.md R87), one for each check of WellFormed -/

theorem test_wellFormed_refuses_op_0 : (CmdFields.mk 0#3 false 0#28 0#32).opOk = false := by decide
theorem test_wellFormed_refuses_op_4 : (CmdFields.mk 4#3 false 0#28 0#32).wellFormed = false := by decide
theorem test_wellFormed_refuses_rsv : (CmdFields.mk 3#3 true 1#28 4#32).rsvOk = false := by decide
theorem test_wellFormed_refuses_out_of_init : (CmdFields.mk 1#3 true 0#28 0#32).outOk = false := by decide
theorem test_wellFormed_refuses_out_of_predict : (CmdFields.mk 2#3 true 0#28 4#32).outOk = false := by decide
theorem test_wellFormed_refuses_pc_of_init : (CmdFields.mk 1#3 false 0#28 1#32).pcOk = false := by decide
theorem test_wellFormed_refuses_whole :
    (CmdFields.mk 3#3 true 1#28 4#32).wellFormed = false ∧ (CmdFields.mk 2#3 true 0#28 4#32).wellFormed = false ∧
    (CmdFields.mk 1#3 false 0#28 1#32).wellFormed = false ∧ (CmdFields.mk 3#3 true 0#28 4#32).wellFormed = true := by
  decide
theorem test_fits_refuses :
    ({ scheme := 8 } : ConfigFields).fits = false ∧ ({ h := 32 } : ConfigFields).fits = false ∧
    ({ l := 32 } : ConfigFields).fits = false ∧ ({ p := 32 } : ConfigFields).fits = false ∧
    ({ tourXor := 2 } : ConfigFields).fits = false ∧ ({ percHash := 2 } : ConfigFields).fits = false ∧
    ({ e := 2 ^ 32 } : ConfigFields).fits = false ∧ ({ k := 2 ^ 32 } : ConfigFields).fits = false ∧
    ({ theta := 2 ^ 32 } : ConfigFields).fits = false ∧ ({ w := 2 ^ 32 } : ConfigFields).fits = false := by decide

/-! ### Decoding, from words written out bit by bit (30_encoding.md R81, R82; 95_test_vectors.md 2.3) -/

/-- `{PC = 0, RSV = 0, OUT = 0, OP = 001}`. -/
theorem test_decode_init :
    decode (0b00000000000000000000000000000000#32 ++ 0b0000000000000000000000000000#28 ++ 0b0#1 ++ 0b001#3) =
      some .init := by decide
/-- `{PC = 4, RSV = 0, OUT = 0, OP = 010}`. -/
theorem test_decode_predict :
    decode (0b00000000000000000000000000000100#32 ++ 0b0000000000000000000000000000#28 ++ 0b0#1 ++ 0b010#3) =
      some (.predict 4#32) := by decide
/-- `{PC = 2^31, RSV = 0, OUT = 1, OP = 011}`. -/
theorem test_decode_train :
    decode (0b10000000000000000000000000000000#32 ++ 0b0000000000000000000000000000#28 ++ 0b1#1 ++ 0b011#3) =
      some (.train 0x80000000#32 true) := by decide
theorem test_decode_train_not_taken : decode 0x0000000400000003#64 = some (.train 4#32 false) := by decide
theorem test_decode_illegal_op :
    decode 0x0000000000000000#64 = none ∧ decode 0x0000000000000004#64 = none ∧
    decode 0x0000000000000007#64 = none := by decide
theorem test_decode_illegal_out :
    decode 0x000000040000000A#64 = none ∧ decode 0x0000000000000009#64 = none := by decide
theorem test_decode_illegal_pc_rsv :
    decode 0x0000000100000001#64 = none ∧ decode 0x0000000400000012#64 = none ∧
    decode 0x0000000480000003#64 = none := by decide
theorem test_decodeTableWord :
    decodeTableWord 64 0x1 = some .init ∧ decodeTableWord 64 0x2 = some (.predict 0#32) ∧
    decodeTableWord 64 0x80000000B = some (.train 8#32 true) := by decide

/-! ### States -/

/-- The state of an answer; the reset state for one that has none. -/
def stateOf (o : Out) : State :=
  match o with
  | .next t => t
  | .fault _ => State.reset
  | .refused _ => State.reset

def cfgStatic : CfgRecord := recordOf 0#32 0#32 0#32 0#32 0#32
def cfgGShare : CfgRecord := recordOf 0x00000011#32 0#32 0#32 0#32 0#32
def cfgTournament : CfgRecord := recordOf 0x00004212#32 0#32 0#32 0#32 0#32
def cfgTournamentXor : CfgRecord := recordOf 0x00044212#32 0#32 0#32 0#32 0#32
def cfgPerceptron : CfgRecord := recordOf 0x00000003#32 4#32 2#32 1#32 4#32

/-- After reset, with a record on the cfg port. -/
def offered (c : CfgRecord) : State := { State.reset with cfgPort := c }
/-- After INIT with a record. -/
def configured (c : CfgRecord) : State := respond false (latchConfig (offered c))
/-- After INIT and PREDICT. -/
def predicted (c : CfgRecord) (pc : Word) : State := stateOf (exec (.predict pc) (configured c))
/-- After a fault. -/
def faulted : State := stateOf (exec (.predict 8#32) State.reset)
/-- With one word presented. -/
def presenting (w : CmdWord) (s : State) : State := { s with inputs := [.command w s.cfgPort] }

/-- A gshare state with H = 2, and a tournament state with H = L = P = 2, and a perceptron state with K = 2. -/
def gshareAt (ghr : Nat) (cells : List (Nat × Counter)) : GShare :=
  { ghr := ghr, pht := { size := 4, fill := 1#2, cells := cells } }
def tournamentAt (ghr : Nat) (gpht chooser : List (Nat × Counter)) (lht : List (Nat × Nat))
    (lpht : List (Nat × Counter)) : Tournament :=
  { ghr := ghr, gpht := { size := 4, fill := 1#2, cells := gpht }, chooser := { size := 4, fill := 1#2, cells := chooser },
    lht := { size := 4, fill := 0, cells := lht }, lpht := { size := 4, fill := 1#2, cells := lpht } }
def perceptronAt (phr : List Bool) (cells : List (Nat × List Int)) (lastPred : Bool) (lastMag : Nat) : Perceptron :=
  { phr := phr, wt := { size := 4, fill := [0, 0, 0], cells := cells }, lastPred := lastPred, lastMag := lastMag }

/-! ### INIT (95_test_vectors.md 2.4, P1) -/

theorem test_init_gshare :
    (stateOf (exec .init (offered cfgGShare))).scheme = some (.gshare (gshareAt 0 [])) ∧
    status (stateOf (exec .init (offered cfgGShare))) = 0x00000001#32 := by decide
theorem test_init_details :
    status (stateOf (exec .init (offered (recordOf 0x00000005#32 0#32 0#32 0#32 0#32)))) = 0x00010103#32 ∧
    status (stateOf (exec .init (offered (recordOf 0x00100011#32 0#32 0#32 0#32 0#32)))) = 0x00020103#32 ∧
    status (stateOf (exec .init (offered (recordOf 0x000000F9#32 0#32 0#32 0#32 0#32)))) = 0x00030103#32 ∧
    status (stateOf (exec .init (offered (recordOf 0x00002012#32 0#32 0#32 0#32 0#32)))) = 0x00040103#32 ∧
    status (stateOf (exec .init (offered (recordOf 0x00000212#32 0#32 0#32 0#32 0#32)))) = 0x00050103#32 ∧
    status (stateOf (exec .init (offered (recordOf 3#32 0#32 2#32 1#32 4#32)))) = 0x00060103#32 ∧
    status (stateOf (exec .init (offered (recordOf 3#32 4#32 0#32 1#32 4#32)))) = 0x00070103#32 ∧
    status (stateOf (exec .init (offered (recordOf 3#32 4#32 2#32 1#32 0#32)))) = 0x00080103#32 := by decide

/-! ### PREDICT and TRAIN (95_test_vectors.md 2.5 to 2.9) -/

/-- D-G1, row 3: TRAIN at a saturated counter moves only the history. -/
theorem test_gshare_train :
    gshareTrain 2 (gshareAt 3 [(0, 2#2), (1, 2#2), (3, 3#2)]) 4#32 true =
      some (gshareAt 3 [(0, 2#2), (1, 2#2), (3, 3#2)]) ∧
    gshareTrain 2 (gshareAt 0 []) 4#32 true = some (gshareAt 1 [(0, 2#2)]) := by decide
/-- D-T6: a local history shared by two pcs; D-T7: the XOR index. -/
theorem test_tournament_train :
    tourTrain 2 2 2 false (tournamentAt 0 [] [] [(1, 3)] [(3, 3#2)]) 5#32 true =
      some (tournamentAt 1 [(0, 2#2)] [(0, 2#2)] [(1, 3)] [(3, 3#2)]) ∧
    tourTrain 2 2 2 true (tournamentAt 3 [] [] [] []) 6#32 true =
      some (tournamentAt 3 [(1, 2#2)] [] [(2, 1)] [(0, 2#2)]) := by decide
/-- D-T6: the chooser at 1 selects global; with the chooser at 2 local would answer. -/
theorem test_tournament_predict :
    tourPredict 2 2 false (tournamentAt 0 [] [] [(1, 3)] [(3, 3#2)]) 5#32 = some false ∧
    tourPredict 2 2 false (tournamentAt 0 [] [(0, 2#2)] [(1, 3)] [(3, 3#2)]) 5#32 = some true := by decide
/-- D-P1, first row; D-P6, both ends of the range of y. -/
theorem test_perceptron_predict :
    percPredict 4 2 false (perceptronAt [false, false] [(1, [-1, 1, 1])] false 0) 5#32 =
      some (false, perceptronAt [false, false] [(1, [-1, 1, 1])] false 3) ∧
    percSum 2 [false, false] [3, -4, -4] = some 11 ∧ percSum 2 [true, true] [-4, -4, -4] = some (-12) := by decide
/-- D-P2, #4: weight 1 goes with the newest outcome; D-P4, #1: the bias is held at W - 1. -/
theorem test_perceptron_train :
    percTrain 4 2 1 4 false (perceptronAt [false, true] [] true 0) 5#32 false =
      some (perceptronAt [true, false] [(1, [-1, -1, 1])] true 0) ∧
    trainRow 1 [false] true [0, 0] = [0, -1] := by decide
/-- P1 and 2.5: the faults of PREDICT and TRAIN. -/
theorem test_protocol_faults :
    status (stateOf (exec (.train 8#32 true) State.reset)) = 0x00000303#32 ∧
    status (stateOf (exec (.train 4#32 true) (configured cfgGShare))) = 0x00000603#32 ∧
    status (stateOf (exec (.predict 4#32) (predicted cfgGShare 4#32))) = 0x00000503#32 ∧
    status (stateOf (exec (.train 5#32 true) (predicted cfgGShare 4#32))) = 0x00000703#32 ∧
    status (stateOf (exec .init (configured cfgGShare))) = 0x00000403#32 := by decide
/-- R119, and hist_shift at 30 bits (2.2). -/
theorem test_history_shifts :
    percShift [false, true, true] false = [true, true, false] ∧
    histShift 0x3FFFFFFF true 30 = 0x3FFFFFFF ∧ histShift 0x20000000 false 30 = 0 ∧ histShift 3 true 2 = 3 := by decide
/-- S2: indices at the extremes. -/
theorem test_indices :
    gidx 30 0x2AAAAAAA 0xFFFFFFFF#32 = 0x15555555 ∧ gidx 1 1 0xFFFFFFFF#32 = 0 ∧ lslot 2 0xFFFFFFFF#32 = 3 ∧
    tgidx 2 true 3 6#32 = 1 ∧ prow 7 false [] 0xFFFFFFFF#32 = 3 := by decide

/-! ### The step (95_test_vectors.md 2.10, P5) -/

theorem test_illegal_before_state :
    status (stateOf (step (presenting 0x000000040000001B#64 State.reset))) = 0x00000203#32 := by decide
theorem test_faulted_refuses :
    status (stateOf (step (presenting 0x0000000000000001#64 faulted))) = 0x00000303#32 ∧
    (stateOf (step (presenting 0x0000000000000001#64 faulted))).fcmd = 0x0000000800000002#64 := by decide
theorem test_rst : stateOf (step { faulted with inputs := [.rst] }) = State.reset := by decide
theorem test_withFetchWord :
    stateOf (step (State.withFetchWord (predicted cfgStatic 0x10#32) 64 0x100000000B)) =
      stateOf (exec (.train 0x10#32 true) (predicted cfgStatic 0x10#32)) := by decide

/-! ### The assembler (30_encoding.md R91, R92) -/

theorem test_parse_init :
    parseLine (['I', 'N', 'I', 'T', ' ', Char.ofNat 123] ++
      ['S', 'C', 'H', 'E', 'M', 'E', '=', 'g', 's', 'h', 'a', 'r', 'e', ',', ' ', 'H', '=', '2', Char.ofNat 125]) =
      some (some (.init { scheme := 1, h := 2 })) := by decide
/-- Log entry 11: field numbers in hexadecimal, and a trailing comma refused. -/
theorem test_parse_init_choices :
    parseFields {} [] [.word ['H'], .equals, .word ['0', 'x', '1', 'E'], .closeBrace] = some { h := 30 } ∧
    parseFields {} [] [.word ['H'], .equals, .word ['2'], .comma, .closeBrace] = none := by decide
theorem test_parse_branch :
    parseLine ['B', 'R', 'A', 'N', 'C', 'H', ' ', '0', 'x', '1', '0', ',', ' ', 'T', ' ', ';', '-', '-'] =
      some (some (.branch 16 true)) := by decide
theorem test_assemble :
    assemble 0#160 [.init { scheme := 1, h := 2 }, .branch 4 true] =
      some [.command 0x0000000000000001#64 cfgGShare, .command 0x0000000400000002#64 cfgGShare,
        .command 0x000000040000000B#64 cfgGShare] := by decide

/-- 20_memory.md R64: least significant byte first. -/
theorem test_bytes :
    cmdBytes 0x000000040000000B#64 = [0x0B#8, 0#8, 0#8, 0#8, 4#8, 0#8, 0#8, 0#8] ∧
    ofBytesLE (cmdBytes 0x000000040000000B#64) = 0x000000040000000B ∧
    (recordBytes cfgTournament).take 4 = [0x12#8, 0x42#8, 0#8, 0#8] ∧
    respBytes (respWord true 0x00000002#32) = [5#8, 0#8, 0#8, 0#8, 0#8] := by decide

/-! ### Witnesses of the obligations' hypotheses -/

theorem inv_offered (c : CfgRecord) : BlockInv (offered c) :=
  (inv_applyRst (s := State.reset) (by decide)).ports [] c

theorem inv_configured {c : CfgRecord} (h : configCheck Config.defaultParams c = none) : BlockInv (configured c) :=
  inv_latchConfig (inv_offered c) rfl h

/-- The records of the four schemes, with TOUR_XOR 0 and 1. -/
theorem records_legal :
    ∀ c ∈ [cfgStatic, cfgGShare, cfgTournament, cfgTournamentXor, cfgPerceptron],
      configCheck Config.defaultParams c = none := by
  intro c hc
  simp only [List.mem_cons, List.not_mem_nil, or_false] at hc
  rcases hc with rfl | rfl | rfl | rfl | rfl <;> decide

theorem inv_predicted {c : CfgRecord} {pc : Word} {p : Bool} {x : Option SchemeState}
    (h : configCheck Config.defaultParams c = none) (hp : schemePredict (configured c) pc = some (p, x)) :
    BlockInv (predicted c pc) := by
  have h' := inv_predict (inv_configured h) rfl hp
  have e : predicted c pc = respond p { configured c with scheme := x, pendPc := pc, opState := .pending } := by
    rw [predicted, exec_predict_ready rfl hp]
    rfl
  rw [e]
  exact h'

theorem inv_predicted_gshare : BlockInv (predicted cfgGShare 4#32) :=
  inv_predicted (by decide) (p := false) (x := some (.gshare (gshareAt 0 []))) (by decide)

theorem inv_predicted_perceptron : BlockInv (predicted cfgPerceptron 5#32) :=
  inv_predicted (by decide) (p := true) (x := some (.perceptron (perceptronAt [false, false] [] true 0))) (by decide)

theorem test_witness_DecodeAndEncodeAgree : decode 0x000000040000000B#64 = some (.train 4#32 true) := by decide

theorem test_witness_IllegalWordsTakeIllegalCommand :
    (presenting 0x0000000400000012#64 (configured cfgGShare)).inputs = .command 0x0000000400000012#64 cfgGShare :: [] ∧
    (presenting 0x0000000400000012#64 (configured cfgGShare)).opState ≠ .faulted ∧
    decode 0x0000000400000012#64 = none := by decide

theorem test_witness_ConfigFieldsReadBack :
    ({ scheme := 7, h := 31, l := 31, p := 31, tourXor := 1, percHash := 1, e := 2 ^ 32 - 1, k := 2 ^ 32 - 1,
       theta := 2 ^ 32 - 1, w := 2 ^ 32 - 1 } : ConfigFields).fits = true ∧ ({} : ConfigFields).fits = true := by decide

theorem test_witness_BranchExpandsToPredictThenTrain : 2 ^ 32 - 1 < 2 ^ 32 := by decide

theorem test_witness_StepRunsTheDecodedCommand :
    (presenting 0x0000000400000002#64 (configured cfgGShare)).inputs = .command 0x0000000400000002#64 cfgGShare :: [] ∧
    (presenting 0x0000000400000002#64 (configured cfgGShare)).opState ≠ .faulted ∧
    decode 0x0000000400000002#64 = some (.predict 4#32) := by decide

theorem test_witness_FaultedRefusesEveryCommand :
    (presenting 0x0000000000000001#64 faulted).inputs = .command 0x0000000000000001#64 0#160 :: [] ∧
    (presenting 0x0000000000000001#64 faulted).opState = .faulted ∧
    step { faulted with inputs := [.rst] } = .next State.reset ∧ State.reset.opState ≠ .faulted := by
  exact ⟨rfl, rfl, rfl, by decide⟩

/-- For RstClearsEveryRegister and PowerOnEqualsRst. -/
theorem test_witness_RstClearsEveryRegister :
    ({ predicted cfgPerceptron 5#32 with inputs := [.rst, .rst] } : State).inputs = .rst :: [.rst] := by decide

theorem test_witness_IdleBlockHoldsItsState : (predicted cfgGShare 4#32).inputs = [] := by decide

theorem test_witness_StatusShowsStateAndFault :
    (presenting 0#64 State.reset).inputs = .command 0#64 0#160 :: [] ∧
    step (presenting 0#64 State.reset) = .next (stateOf (step (presenting 0#64 State.reset))) := ⟨rfl, rfl⟩

/-- A PREDICT in READY, and a word that is not one. -/
theorem test_witness_EveryCommandAnswersOneResponse :
    step (presenting 0x0000000400000002#64 (configured cfgStatic)) =
      .next (stateOf (step (presenting 0x0000000400000002#64 (configured cfgStatic)))) ∧
    (configured cfgStatic).opState = .ready ∧ decode 0x0000000400000002#64 = some (.predict 4#32) ∧
    step (presenting 0#64 State.reset) = .next (stateOf (step (presenting 0#64 State.reset))) ∧
    (∀ pc, decode 0#64 ≠ some (.predict pc)) := by
  refine ⟨rfl, rfl, by decide, rfl, fun pc => ?_⟩
  rw [show decode 0#64 = none by decide]
  exact fun h => by cases h

/-- One record for each row of the FDETAIL table, each the first row that applies; the last fails two rows. -/
theorem test_witness_InitReportsTheFirstFailingCheck :
    ∀ x ∈ [(recordOf 4#32 0#32 0#32 0#32 0#32, FaultDetail.schemeUnrecognized),
        (recordOf 0x00100000#32 0#32 0#32 0#32 0#32, .cfg0Reserved), (recordOf 0xF9#32 0#32 0#32 0#32 0#32, .hRange),
        (recordOf 0x2012#32 0#32 0#32 0#32 0#32, .lRange), (recordOf 0x0212#32 0#32 0#32 0#32 0#32, .pRange),
        (recordOf 3#32 0#32 2#32 1#32 4#32, .eRange), (recordOf 3#32 4#32 0#32 1#32 4#32, .kRange),
        (recordOf 3#32 4#32 2#32 1#32 0#32, .wRange), (recordOf 3#32 0#32 0#32 0#32 0#32, .eRange)],
      (offered x.1).opState = .unconfigured ∧ ConfigFault (offered x.1).params (offered x.1).cfgPort x.2 ∧
      ∀ d', ConfigFault (offered x.1).params (offered x.1).cfgPort d' → x.2.bits.toNat ≤ d'.bits.toNat := by
  intro x hx
  have h : configCheck (offered x.1).params (offered x.1).cfgPort = some x.2 := by
    simp only [List.mem_cons, List.not_mem_nil, or_false] at hx
    rcases hx with rfl | rfl | rfl | rfl | rfl | rfl | rfl | rfl | rfl <;> decide
  exact ⟨rfl, configCheck_some h⟩

theorem test_witness_SecondInitTakesReinit :
    (configured cfgGShare).opState = .ready ∧ (predicted cfgGShare 4#32).opState = .pending := by decide

/-- H, L and P at 1 and at 30; E, K and W at 1. -/
theorem test_witness_InitCreatesTheSchemeState :
    ∀ c ∈ [cfgStatic, recordOf 0x09#32 0#32 0#32 0#32 0#32, recordOf 0xF1#32 0#32 0#32 0#32 0#32,
        recordOf 0x210A#32 0#32 0#32 0#32 0#32, recordOf 0x3DEF2#32 0#32 0#32 0#32 0#32,
        recordOf 3#32 1#32 1#32 0#32 1#32],
      (offered c).opState = .unconfigured ∧ ∀ d, ¬ConfigFault (offered c).params (offered c).cfgPort d := by
  intro c hc
  have h : configCheck (offered c).params (offered c).cfgPort = none := by
    simp only [List.mem_cons, List.not_mem_nil, or_false] at hc
    rcases hc with rfl | rfl | rfl | rfl | rfl | rfl <;> decide
  exact ⟨rfl, configCheck_none h⟩

/-- Both clauses: an INIT on an illegal record takes CONFIG_ERROR from the invariant. -/
theorem test_witness_FaultsArePrecise :
    let s := presenting 0x0000000000000001#64 (offered (recordOf 4#32 0#32 0#32 0#32 0#32))
    BlockInv s ∧ s.opState ≠ .faulted ∧ s.fcode = .noFault ∧ step s = .next (stateOf (step s)) ∧
      (stateOf (step s)).opState = .faulted ∧ (stateOf (step s)).fcode = .configError :=
  ⟨(inv_offered _).ports _ _, by decide, rfl, rfl, rfl, rfl⟩

/-- A step that records a fault, and one in FAULTED; neither is a rst. -/
theorem test_witness_FirstFaultIsKeptUntilRst :
    step (configured cfgGShare) = .next (configured cfgGShare) ∧ (configured cfgGShare).opState ≠ .faulted ∧
    step (presenting 0#64 faulted) = .next (stateOf (step (presenting 0#64 faulted))) ∧ faulted.opState = .faulted ∧
    (∀ rest, (presenting 0#64 faulted).inputs ≠ .rst :: rest) := by
  refine ⟨rfl, by decide, rfl, rfl, fun rest h => by cases h⟩

theorem test_witness_PredictOutOfOrderFaults :
    State.reset.opState = .unconfigured ∧ (predicted cfgStatic 0#32).opState = .pending := by decide

theorem test_witness_TrainOutOfOrderFaults :
    State.reset.opState = .unconfigured ∧ (configured cfgStatic).opState = .ready ∧
    (predicted cfgStatic 0#32).opState = .pending ∧ 0xFFFFFFFF#32 ≠ (predicted cfgStatic 0#32).pendPc := by decide

theorem test_witness_StaticPredictsTaken :
    (configured cfgStatic).opState = .ready ∧ (configured cfgStatic).activeScheme = some .static := by decide

theorem test_witness_StaticTrainChangesOnlyState :
    (predicted cfgStatic 0#32).opState = .pending ∧ (predicted cfgStatic 0#32).activeScheme = some .static := by decide

theorem test_witness_GSharePredictsByTheIndexedCounter :
    (configured cfgGShare).opState = .ready ∧ (configured cfgGShare).activeScheme = some .gshare ∧
    (configured cfgGShare).scheme = some (.gshare (gshareAt 0 [])) ∧
    (gshareAt 0 []).pht.size = 2 ^ (configured cfgGShare).histBits := by decide

theorem test_witness_GShareTrainsTheIndexedCounter :
    (predicted cfgGShare 4#32).opState = .pending ∧ (predicted cfgGShare 4#32).activeScheme = some .gshare ∧
    (predicted cfgGShare 4#32).scheme = some (.gshare (gshareAt 0 [])) ∧
    GShareOk (predicted cfgGShare 4#32).histBits (gshareAt 0 []) :=
  ⟨by decide, by decide, by decide, ⟨by decide, by decide, by decide⟩⟩

theorem tournamentOk_init (t : Tournament) (h : t = tournamentAt 0 [] [] [] []) : TournamentOk 2 2 2 t := by
  subst h
  exact ⟨by decide, ⟨by decide, by decide⟩, ⟨by decide, by decide⟩, ⟨by decide, by decide⟩, ⟨by decide, by decide⟩,
    fun i => (by decide : 0 < 2 ^ 2)⟩

/-- Both global indices: the raw history, and the XOR mode. -/
theorem test_witness_TournamentPredictsByTheChosenCounter :
    ∀ c ∈ [cfgTournament, cfgTournamentXor],
      (configured c).opState = .ready ∧ (configured c).activeScheme = some .tournament ∧
      ∃ t, (configured c).scheme = some (.tournament t) ∧
        TournamentOk (configured c).histBits (configured c).localBits (configured c).pcBits t := by
  intro c hc
  have h : (configured c).activeScheme = some .tournament ∧
      (configured c).scheme = some (.tournament (tournamentAt 0 [] [] [] [])) ∧ (configured c).histBits = 2 ∧
      (configured c).localBits = 2 ∧ (configured c).pcBits = 2 := by
    simp only [List.mem_cons, List.not_mem_nil, or_false] at hc
    rcases hc with rfl | rfl <;> decide
  refine ⟨rfl, h.1, _, h.2.1, ?_⟩
  rw [h.2.2.1, h.2.2.2.1, h.2.2.2.2]
  exact tournamentOk_init _ rfl

theorem test_witness_TournamentTrainsFromThePreState :
    (predicted cfgTournament 5#32).opState = .pending ∧
    (predicted cfgTournament 5#32).activeScheme = some .tournament ∧
    (predicted cfgTournament 5#32).scheme = some (.tournament (tournamentAt 0 [] [] [] [])) ∧
    TournamentOk 2 2 2 (tournamentAt 0 [] [] [] []) ∧ (predicted cfgTournament 5#32).histBits = 2 ∧
    (predicted cfgTournament 5#32).localBits = 2 ∧ (predicted cfgTournament 5#32).pcBits = 2 :=
  ⟨by decide, by decide, by decide, tournamentOk_init _ rfl, by decide, by decide, by decide⟩

theorem perceptronOk_init (p : Bool) : PerceptronOk 4 2 4 (perceptronAt [false, false] [] p 0) :=
  ⟨by cases p <;> decide, by cases p <;> exact ⟨by decide, by decide⟩, fun r => (⟨rfl, by decide⟩ : RowOk 2 4 [0, 0, 0]),
    by cases p <;> decide⟩

theorem test_witness_PerceptronPredictsByTheWeightedSum :
    (configured cfgPerceptron).opState = .ready ∧ (configured cfgPerceptron).activeScheme = some .custom ∧
    (configured cfgPerceptron).scheme = some (.perceptron (perceptronAt [false, false] [] false 0)) ∧
    1 ≤ (configured cfgPerceptron).percRows ∧ (configured cfgPerceptron).percRows = 4 ∧
    (configured cfgPerceptron).percHist = 2 ∧ (configured cfgPerceptron).percClamp = 4 ∧
    PerceptronOk 4 2 4 (perceptronAt [false, false] [] false 0) :=
  ⟨by decide, by decide, by decide, by decide, by decide, by decide, by decide, perceptronOk_init false⟩

/-- The gate open (LAST_MAG = 0 ≤ THETA = 1); and closed in a state with LAST_MAG = 3 and a right prediction (D-P1). -/
theorem test_witness_PerceptronTrainsTheSelectedRow :
    (predicted cfgPerceptron 5#32).opState = .pending ∧ (predicted cfgPerceptron 5#32).activeScheme = some .custom ∧
    (predicted cfgPerceptron 5#32).scheme = some (.perceptron (perceptronAt [false, false] [] true 0)) ∧
    (predicted cfgPerceptron 5#32).percRows = 4 ∧ (predicted cfgPerceptron 5#32).percHist = 2 ∧
    (predicted cfgPerceptron 5#32).percClamp = 4 ∧ PerceptronOk 4 2 4 (perceptronAt [false, false] [] true 0) ∧
    (perceptronAt [false, false] [] true 0).lastMag ≤ (predicted cfgPerceptron 5#32).percTheta ∧
    (predicted cfgPerceptron 5#32).percTheta < (perceptronAt [false, false] [(1, [-1, 1, 1])] false 3).lastMag ∧
    (perceptronAt [false, false] [(1, [-1, 1, 1])] false 3).lastPred = false :=
  ⟨by decide, by decide, by decide, by decide, by decide, by decide, perceptronOk_init true, by decide, by decide, rfl⟩

/-- For each scheme. -/
theorem test_witness_PredictWritesNoTableOrHistory :
    ∀ c ∈ [cfgStatic, cfgGShare, cfgTournament, cfgTournamentXor, cfgPerceptron],
      (configured c).opState = .ready ∧ (predicted c 5#32).opState = .pending ∧ (predicted c 5#32).pendPc = 5#32 := by
  intro c hc
  simp only [List.mem_cons, List.not_mem_nil, or_false] at hc
  rcases hc with rfl | rfl | rfl | rfl | rfl <;> decide

/-- For each scheme: TRAIN of the pending pc answers a next state. -/
theorem test_witness_TrainWritesOnlyTheIndexedEntries :
    ∀ c ∈ [cfgStatic, cfgGShare, cfgTournament, cfgTournamentXor, cfgPerceptron],
      (predicted c 5#32).opState = .pending ∧
      (stateOf (exec (.train (predicted c 5#32).pendPc true) (predicted c 5#32))).opState = .ready := by
  intro c hc
  simp only [List.mem_cons, List.not_mem_nil, or_false] at hc
  rcases hc with rfl | rfl | rfl | rfl | rfl <;> decide

/-- For OnlyTheNamedCommandsWriteEachState: a step that writes CFG0, one that writes PEND_PC, and one of each command that
writes the scheme state, none a rst. -/
theorem test_witness_OnlyTheNamedCommandsWriteEachState :
    (stateOf (step (presenting 1#64 (offered cfgGShare)))).cfgRecord ≠ (offered cfgGShare).cfgRecord ∧
    (stateOf (step (presenting 1#64 (offered cfgGShare)))).scheme ≠ (offered cfgGShare).scheme ∧
    (stateOf (step (presenting 0x0000000500000002#64 (configured cfgPerceptron)))).pendPc ≠
      (configured cfgPerceptron).pendPc ∧
    (stateOf (step (presenting 0x0000000500000002#64 (configured cfgPerceptron)))).scheme ≠
      (configured cfgPerceptron).scheme ∧
    (stateOf (step (presenting 0x000000040000000B#64 (predicted cfgGShare 4#32)))).scheme ≠
      (predicted cfgGShare 4#32).scheme := by decide

/-- For StateMovesAsTheModeTableSays: each move of STATE. -/
theorem test_witness_StateMovesAsTheModeTableSays :
    (step (presenting 1#64 (offered cfgStatic)) = .next (stateOf (step (presenting 1#64 (offered cfgStatic)))) ∧
      (stateOf (step (presenting 1#64 (offered cfgStatic)))).opState = .ready) ∧
    (step (presenting 2#64 (configured cfgGShare)) = .next (stateOf (step (presenting 2#64 (configured cfgGShare)))) ∧
      (stateOf (step (presenting 2#64 (configured cfgGShare)))).opState = .pending) ∧
    (step (presenting 3#64 (predicted cfgStatic 0#32)) =
        .next (stateOf (step (presenting 3#64 (predicted cfgStatic 0#32)))) ∧
      (stateOf (step (presenting 3#64 (predicted cfgStatic 0#32)))).opState = .ready) ∧
    (∀ rest, (presenting 3#64 (predicted cfgStatic 0#32)).inputs ≠ .rst :: rest) ∧ faulted.opState = .faulted :=
  ⟨⟨rfl, rfl⟩, ⟨rfl, rfl⟩, ⟨rfl, rfl⟩, (fun rest h => by cases h), rfl⟩

/-- Static: every other field changed; gshare: L, P, TOUR_XOR, PERC_HASH and CFG1 to CFG4 changed. -/
theorem test_witness_UnusedConfigurationIsNeverRead :
    (Instr.predict 4#32 ≠ .init) ∧ cfgSchemeCode 0x000FFFF8#32 = cfgSchemeCode (configured cfgStatic).cfg0 ∧
    (configured cfgStatic).activeScheme = some .static ∧
    cfgSchemeCode 0x000FFF11#32 = cfgSchemeCode (configured cfgGShare).cfg0 ∧
    cfgH 0x000FFF11#32 = cfgH (configured cfgGShare).cfg0 ∧
    exec (.predict 4#32) (configured cfgGShare) = .next (predicted cfgGShare 4#32) :=
  ⟨by decide, by decide, by decide, by decide, by decide, rfl⟩

/-- Both ends of each range of v, at the bound n = 3. -/
theorem test_witness_CounterSaturates :
    3 ≤ 3 ∧ (0#2).toNat ≤ 1 ∧ (1#2).toNat ≤ 1 ∧ 2 ≤ (2#2).toNat ∧ 2 ≤ (3#2).toNat := by decide

/-- For IntegerHistoryHoldsRecentOutcomes and VectorHistoryHoldsRecentOutcomes. -/
theorem test_witness_HistoriesHoldRecentOutcomes : 0 < 1 ∧ 29 < 30 := by decide

theorem test_witness_HistShiftKeepsTheWidth : 1 ≤ 1 ∧ 1 < 2 ^ 1 ∧ 1 ≤ 30 ∧ 0x3FFFFFFF < 2 ^ 30 ∧ 28 + 1 < 30 := by decide

theorem test_witness_GShareIndexUsesTheLowPcBits : 0x3FFFFFFF < 2 ^ 30 := by decide

/-- D-T2, D-T3: the sub-predictions disagree at both saturated choosers. -/
theorem test_witness_ChooserChangesOnlyOnDisagreement :
    TournamentOk 2 2 2 (tournamentAt 0 [] [] [] []) ∧
    (tourTrain 2 2 2 false (tournamentAt 0 [] [] [] []) 0#32 true).isSome = true ∧
    globalPred 2 false (tournamentAt 0 [] [] [] []) 0#32 = some false ∧
    localPred 2 (tournamentAt 0 [] [] [] []) 0#32 = some false ∧
    globalPred 2 false (tournamentAt 0 [(0, 2#2)] [(0, 3#2)] [] []) 0#32 = some true ∧
    localPred 2 (tournamentAt 0 [(0, 2#2)] [(0, 3#2)] [] []) 0#32 = some false ∧
    (tournamentAt 0 [(0, 2#2)] [(0, 3#2)] [] []).chooser.read 0 = some 3#2 ∧
    (tournamentAt 0 [(0, 2#2)] [(0, 0#2)] [] []).chooser.read 0 = some 0#2 ∧
    (configured cfgTournament).scheme = some (.tournament (tournamentAt 0 [] [] [] [])) ∧
    exec (.predict 0#32) (configured cfgTournament) = .next (predicted cfgTournament 0#32) :=
  ⟨tournamentOk_init _ rfl, by decide, by decide, by decide, by decide, by decide, by decide, by decide, by decide, rfl⟩

/-- D-P6: both ends of the range. -/
theorem test_witness_WeightedSumStaysInRange :
    RowOk 2 4 [3, -4, -4] ∧ percSum 2 [false, false] [3, -4, -4] = some 11 ∧
    RowOk 2 4 [-4, -4, -4] ∧ percSum 2 [true, true] [-4, -4, -4] = some (-12) :=
  ⟨⟨by decide, by decide⟩, by decide, ⟨by decide, by decide⟩, by decide⟩

/-- D-P4: the least clamp bound. -/
theorem test_witness_TrainedWeightsStayClamped : 1 ≤ 1 ∧ [false].length = 1 ∧ RowOk 1 1 [0, -1] :=
  ⟨by decide, rfl, ⟨by decide, by decide⟩⟩

/-- Weights at both ends, with W = 1 and with W = 5 (WBITS = 4). -/
theorem test_witness_WeightsFitTheirStorage :
    1 ≤ 1 ∧ -((1 : Nat) : Int) ≤ -1 ∧ (0 : Int) ≤ ((1 : Nat) : Int) - 1 ∧ -((5 : Nat) : Int) ≤ -5 ∧
    (4 : Int) ≤ ((5 : Nat) : Int) - 1 := by decide

theorem test_witness_ThresholdCornerCases :
    PerceptronOk 4 2 4 (perceptronAt [false, false] [] true 0) ∧ (2 + 1) * 4 ≤ 12 ∧
    (perceptronAt [false, false] [] true 0).lastMag = 0 := ⟨perceptronOk_init true, by decide, rfl⟩

/-- An index in range, at the last entry, and the first one out of range, for each entry type. -/
theorem test_witness_TableReadsAfterWrite :
    (gshareAt 0 [(3, 2#2)]).pht.wf ∧ 3 < (gshareAt 0 [(3, 2#2)]).pht.size ∧ (gshareAt 0 [(3, 2#2)]).pht.size ≤ 4 ∧
    (tournamentAt 0 [] [] [(3, 1)] []).lht.wf ∧ 3 < (tournamentAt 0 [] [] [(3, 1)] []).lht.size ∧
    (perceptronAt [] [(3, [1, 0, 0])] false 0).wt.wf ∧ 3 < (perceptronAt [] [(3, [1, 0, 0])] false 0).wt.size := by
  decide

theorem test_witness_EqualReadsAreEqualTables :
    (Table.create 4 1#2).wf ∧ (∀ i, (Table.create 4 1#2).read i = (gshareAt 0 []).pht.read i) ∧
    (Table.create 4 0).wf ∧ (∀ i, (Table.create 4 0).read i = (tournamentAt 0 [] [] [] []).lht.read i) ∧
    (Table.create 4 ([0, 0, 0] : List Int)).wf ∧
    (∀ i, (Table.create 4 [0, 0, 0]).read i = (perceptronAt [] [] false 0).wt.read i) :=
  ⟨by decide, fun _ => rfl, by decide, fun _ => rfl, by decide, fun _ => rfl⟩

/-- For StepKeepsTheInvariant and NoReachableStepStops: unconfigured, ready under every scheme, pending. -/
theorem test_witness_StepKeepsTheInvariant :
    BlockInv State.reset ∧
    (∀ c ∈ [cfgStatic, cfgGShare, cfgTournament, cfgTournamentXor, cfgPerceptron], BlockInv (configured c)) ∧
    BlockInv (predicted cfgGShare 4#32) ∧ BlockInv (predicted cfgPerceptron 5#32) ∧
    step (configured cfgGShare) = .next (configured cfgGShare) :=
  ⟨inv_offered _, fun c hc => inv_configured (records_legal c hc), inv_predicted_gshare, inv_predicted_perceptron, rfl⟩

/-- One state for each clause. -/
theorem test_witness_CommandsInOrderComplete :
    (BlockInv (offered cfgPerceptron) ∧ (offered cfgPerceptron).opState = .unconfigured ∧
      ∀ d, ¬ConfigFault (offered cfgPerceptron).params (offered cfgPerceptron).cfgPort d) ∧
    (BlockInv (configured cfgTournament) ∧ (configured cfgTournament).opState = .ready) ∧
    (BlockInv (predicted cfgPerceptron 5#32) ∧ (predicted cfgPerceptron 5#32).opState = .pending) :=
  ⟨⟨inv_offered _, rfl, configCheck_none (by decide)⟩, ⟨inv_configured (by decide), rfl⟩,
    ⟨inv_predicted_perceptron, by decide⟩⟩

/-- Also for GShareConverges and TournamentConverges, whose bound on n is met by n = 4. -/
theorem test_witness_BranchRunsComplete :
    BlockInv (configured cfgGShare) ∧ (configured cfgGShare).opState = .ready ∧
    [((4#32 : Word), true)] ≠ [] ∧ (configured cfgGShare).activeScheme = some .gshare ∧
    (configured cfgGShare).histBits + 2 ≤ 4 ∧
    BlockInv (configured cfgTournament) ∧ (configured cfgTournament).opState = .ready ∧
    (configured cfgTournament).activeScheme = some .tournament ∧
    max (configured cfgTournament).histBits (configured cfgTournament).localBits + 2 ≤ 4 :=
  ⟨inv_configured (by decide), rfl, by decide, by decide, by decide, inv_configured (by decide), rfl, by decide,
    by decide⟩

theorem test_witness_TrainSeesThePredictedState :
    BlockInv (configured cfgPerceptron) ∧ (configured cfgPerceptron).opState = .ready ∧
    exec (.predict 5#32) (configured cfgPerceptron) = .next (predicted cfgPerceptron 5#32) ∧
    (predicted cfgPerceptron 5#32).resp = some (respWord true 0x00000002#32) :=
  ⟨inv_configured (by decide), rfl, rfl, by decide⟩

theorem test_witness_LatchesHoldThePendingSum :
    BlockInv (predicted cfgPerceptron 5#32) ∧ (predicted cfgPerceptron 5#32).opState = .pending ∧
    (predicted cfgPerceptron 5#32).scheme = some (.perceptron (perceptronAt [false, false] [] true 0)) :=
  ⟨inv_predicted_perceptron, by decide, by decide⟩

/-- Two instances that held different states. -/
theorem test_witness_ResetInstancesAgree :
    ({ predicted cfgGShare 4#32 with inputs := [.rst, .command 1#64 cfgStatic] } : State).params = faulted.params ∧
    ({ predicted cfgGShare 4#32 with inputs := [.rst, .command 1#64 cfgStatic] } : State).inputs =
      .rst :: .command 1#64 cfgStatic :: [] ∧
    ({ faulted with inputs := [.rst, .command 1#64 cfgStatic] } : State).inputs =
      .rst :: .command 1#64 cfgStatic :: [] := by decide

end Sys2Proof.Tests
end

/-! PROOFS. What a command and a step can do, as one case split that every statement below is derived from. -/

namespace Sys2Proof.Machine

/-! ### The decoder's word -/

/-- A word that decodes is the word of its command (30_encoding.md R88). -/
theorem encode_of_decode {w : CmdWord} {i : Instr} (h : decode w = some i) : encode i = w := by
  rw [word_halves w] at h ⊢
  rcases decode_halves_eq_some.mp h with ⟨rfl, h1, h2⟩ | ⟨rfl, h2⟩ | ⟨rfl, h2⟩ | ⟨rfl, h2⟩
  · rw [h1, h2]; rfl
  · rw [h2]; exact encode_predict _
  · rw [h2]; exact encode_train _ false
  · rw [h2]; exact encode_train _ true

/-! ### The commands that complete (41_engine.md R131) -/

/-- `i` completes from `s` and leaves `t` (41_engine.md R133, R137, R140). -/
inductive Completes (s : State) : Instr → State → Prop where
  | init : s.opState = .unconfigured → configCheck s.params s.cfgPort = none →
      Completes s .init (respond false (latchConfig s))
  | predict (pc : Word) (p : Bool) (x : Option SchemeState) : s.opState = .ready → schemePredict s pc = some (p, x) →
      Completes s (.predict pc) (respond p { s with scheme := x, pendPc := pc, opState := .pending })
  | train (o : Bool) (x : Option SchemeState) : s.opState = .pending → schemeTrain s s.pendPc o = some x →
      Completes s (.train s.pendPc o) (respond false { s with scheme := x, opState := .ready })

/-- The word `w` takes the fault entry from `s` to `t`; a detail goes with CONFIG_ERROR and with no other code
(60_exceptions.md R252, R256). -/
def TakesFault (w : CmdWord) (s t : State) : Prop :=
  ∃ code d, s.opState ≠ .faulted ∧ code ≠ .noFault ∧ (code = .configError ↔ d ≠ .noDetail) ∧
    raiseFault code d w s = .next t

/-- A command is refused in FAULTED, or takes a fault, or completes. -/
theorem exec_next {i : Instr} {s t : State} (h : exec i s = .next t) :
    (s.opState = .faulted ∧ t = respond false s) ∨ TakesFault (encode i) s t ∨ Completes s i t := by
  cases i with
  | init =>
    rcases execInit_next h with h | ⟨hs, h⟩ | ⟨d, hs, hd, h⟩ | ⟨hs, hc, rfl⟩
    · exact .inl h
    · exact .inr (.inl ⟨_, _, by rcases hs with hs | hs <;> simp [hs], by decide, by decide, h⟩)
    · have : d ≠ .noDetail := by rintro rfl; exact (configCheck_some hd).1
      exact .inr (.inl ⟨_, d, by simp [hs], by decide, by simpa using this, h⟩)
    · exact .inr (.inr (.init hs hc))
  | predict pc =>
    rcases execPredict_next h with h | ⟨hs, h⟩ | ⟨hs, h⟩ | ⟨p, x, hs, hp, rfl⟩
    · exact .inl h
    · exact .inr (.inl ⟨_, _, by simp [hs], by decide, by decide, h⟩)
    · exact .inr (.inl ⟨_, _, by simp [hs], by decide, by decide, h⟩)
    · exact .inr (.inr (.predict pc p x hs hp))
  | train pc o =>
    rcases execTrain_next h with h | ⟨hs, h⟩ | ⟨hs, h⟩ | ⟨hs, -, h⟩ | ⟨x, hs, rfl, hx, rfl⟩
    · exact .inl h
    · exact .inr (.inl ⟨_, _, by simp [hs], by decide, by decide, h⟩)
    · exact .inr (.inl ⟨_, _, by simp [hs], by decide, by decide, h⟩)
    · exact .inr (.inl ⟨_, _, by simp [hs], by decide, by decide, h⟩)
    · exact .inr (.inr (.train o x hs hx))

/-- A command presented to the block is refused, or takes a fault, or decodes to a command that completes
(41_engine.md R130, R132). -/
theorem step_command_next {s t : State} {w : CmdWord} {c : CfgRecord} {rest : List Input}
    (hi : s.inputs = .command w c :: rest) (h : step s = .next t) :
    (s.opState = .faulted ∧ t = respond false { s with inputs := rest, cfgPort := c }) ∨
    TakesFault w { s with inputs := rest, cfgPort := c } t ∨
    ∃ i, decode w = some i ∧ Completes { s with inputs := rest, cfgPort := c } i t := by
  rcases step_next h with ⟨h0, -⟩ | ⟨r, h0, -⟩ | ⟨w', c', r, h0, h⟩
  · simp [hi] at h0
  · simp [hi] at h0
  · rw [hi] at h0
    cases h0
    rcases h with h | ⟨hs, -, h⟩ | ⟨i, hs, hd, h⟩
    · exact .inl h
    · exact .inr (.inl ⟨_, _, hs, by decide, by decide, h⟩)
    · rcases exec_next h with h | h | h
      · exact absurd h.1 hs
      · exact .inr (.inl (encode_of_decode hd ▸ h))
      · exact .inr (.inr ⟨i, hd, h⟩)

/-- Every step is idle, a rst, or a command (30_encoding.md R80; 60_exceptions.md R286). -/
theorem step_cases {s t : State} (h : step s = .next t) :
    (s.inputs = [] ∧ t = s) ∨
    (∃ rest, s.inputs = .rst :: rest ∧ t = applyRst { s with inputs := rest }) ∨
    ∃ w c rest, s.inputs = .command w c :: rest := by
  rcases step_next h with h | h | ⟨w, c, rest, h, -⟩
  · exact .inl h
  · exact .inr (.inl h)
  · exact .inr (.inr ⟨w, c, rest, h⟩)

/-! ### The invariant (10_state.md R44) -/

/-- A command that completes keeps the invariant. -/
theorem Completes.keeps_inv {s t : State} {i : Instr} (h : Completes s i t) (hb : BlockInv s) : BlockInv t := by
  cases h with
  | init hs hc => exact inv_latchConfig hb hs hc
  | predict pc p x hs hp => exact inv_predict hb hs hp
  | train o x hs hx => exact inv_train hb hs hx

/-- The fault entry keeps the invariant. -/
theorem TakesFault.keeps_inv {w : CmdWord} {s t : State} (h : TakesFault w s t) (hb : BlockInv s) : BlockInv t := by
  obtain ⟨_, _, -, hc, hd, hr⟩ := h
  exact inv_raiseFault hb hc hd hr

/-- Settles O48, case by case of what a step can do. -/
theorem stepKeepsTheInvariant : Obligations.StepKeepsTheInvariant := by
  intro s t hb h
  rcases step_cases h with ⟨-, rfl⟩ | ⟨rest, -, rfl⟩ | ⟨w, c, rest, hi⟩
  · exact hb
  · exact inv_applyRst hb.params
  · have hb' : BlockInv { s with inputs := rest, cfgPort := c } := hb.ports rest c
    rcases step_command_next hi h with ⟨-, rfl⟩ | hf | ⟨i, -, hc⟩
    · exact inv_refuse hb' rfl
    · exact hf.keeps_inv hb'
    · exact hc.keeps_inv hb'

/-- Settles O47: rst of the state after reset is the state after reset. -/
theorem resetKeepsTheInvariant : Obligations.ResetKeepsTheInvariant :=
  inv_applyRst (s := State.reset) (by decide)

/-! ### No step stops (60_exceptions.md R254) -/

/-- INIT has a next state, from every state. -/
theorem exec_init_total (s : State) : ∃ t, exec .init s = .next t := by
  show ∃ t, execInit s = .next t
  unfold execInit
  cases s.opState with
  | unconfigured => cases configCheck s.params s.cfgPort <;> exact ⟨_, rfl⟩
  | ready => exact ⟨_, rfl⟩
  | pending => exact ⟨_, rfl⟩
  | faulted => exact ⟨_, rfl⟩

/-- PREDICT has a next state: only its body in READY could be out of range. -/
theorem exec_predict_total {s : State} (h : BlockInv s) (pc : Word) : ∃ t, exec (.predict pc) s = .next t := by
  cases hs : s.opState with
  | ready =>
    obtain ⟨p, x, hp, -⟩ := schemePredict_ok (h.configured (.inl hs)) pc
    exact ⟨_, exec_predict_ready hs hp⟩
  | unconfigured => simp [exec, execPredict, hs, raiseFault]
  | pending => simp [exec, execPredict, hs, raiseFault]
  | faulted => simp [exec, execPredict, hs, refuse]

/-- TRAIN has a next state: only its body in PENDING, for the pending pc, could be out of range. -/
theorem exec_train_total {s : State} (h : BlockInv s) (pc : Word) (o : Bool) :
    ∃ t, exec (.train pc o) s = .next t := by
  cases hs : s.opState with
  | pending =>
    by_cases hpc : pc = s.pendPc
    · obtain ⟨x, hx, -⟩ := schemeTrain_ok (h.configured (.inr hs)) s.pendPc o
      exact ⟨_, hpc ▸ exec_train_pending hs hx⟩
    · simp [exec, execTrain, hs, hpc, raiseFault]
  | unconfigured => simp [exec, execTrain, hs, raiseFault]
  | ready => simp [exec, execTrain, hs, raiseFault]
  | faulted => simp [exec, execTrain, hs, refuse]

/-- Every command has a next state from a state that keeps the invariant. -/
theorem exec_total {s : State} (h : BlockInv s) : ∀ i : Instr, ∃ t, exec i s = .next t
  | .init => exec_init_total s
  | .predict pc => exec_predict_total h pc
  | .train pc o => exec_train_total h pc o

/-- A presented word has a next state, legal or not. -/
theorem runCommand_total {s : State} (h : BlockInv s) (w : CmdWord) : ∃ t, runCommand w s = .next t := by
  unfold runCommand
  split
  · exact ⟨_, rfl⟩
  · split
    · exact ⟨_, rfl⟩
    · exact exec_total h _

/-- Settles O49, by what the driver presents. -/
theorem noReachableStepStops : Obligations.NoReachableStepStops := by
  intro s h
  show ∃ t, takeNext s = .next t
  unfold takeNext
  split
  · exact ⟨s, rfl⟩
  · rename_i x rest _
    cases x with
    | rst => exact ⟨_, rfl⟩
    | command w c => exact runCommand_total (h.ports rest c) w

end Sys2Proof.Machine

/-! PROOFS. What a step leaves alone: the fault record, the configuration, the tables and the histories. -/

namespace Sys2Proof.Machine

/-- What no completing command writes: the parameters, the fault record, the cfg port and the presentations. -/
theorem Completes.frame {s t : State} {i : Instr} (h : Completes s i t) :
    t.params = s.params ∧ t.fcode = s.fcode ∧ t.fdetail = s.fdetail ∧ t.fcmd = s.fcmd ∧ t.cfgPort = s.cfgPort ∧
      t.inputs = s.inputs := by
  cases h <;> exact ⟨rfl, rfl, rfl, rfl, rfl, rfl⟩

/-- No command completes in FAULTED (60_exceptions.md R270). -/
theorem Completes.not_faulted {s t : State} {i : Instr} (h : Completes s i t) : s.opState ≠ .faulted := by
  cases h <;> simp [*]

/-- Settles O18: outside rst only the fault entry writes the record, and it is not taken in FAULTED. -/
theorem firstFaultIsKeptUntilRst : Obligations.FirstFaultIsKeptUntilRst := by
  intro s t h hr
  rcases step_cases h with ⟨-, rfl⟩ | ⟨rest, hi, -⟩ | ⟨w, c, rest, hi⟩
  · exact ⟨fun _ => ⟨rfl, rfl, rfl⟩, fun hs => ⟨hs, rfl, rfl, rfl⟩⟩
  · exact absurd hi (hr rest)
  · rcases step_command_next hi h with ⟨-, rfl⟩ | ⟨code, d, hs, -, -, hf⟩ | ⟨i, -, hc⟩
    · exact ⟨fun _ => ⟨rfl, rfl, rfl⟩, fun hs => ⟨hs, rfl, rfl, rfl⟩⟩
    · cases hf
      exact ⟨fun ht => absurd rfl ht, fun hs' => absurd hs' hs⟩
    · obtain ⟨-, hcode, hdetail, hcmd, -⟩ := hc.frame
      exact ⟨fun _ => ⟨hcode, hdetail, hcmd⟩, fun hs => absurd hs hc.not_faulted⟩

/-! ### PREDICT (41_engine.md R136, R137) -/

/-- A PREDICT that answers in READY completes. -/
theorem predict_ready_next {s t : State} {pc : Word} (hs : s.opState = .ready) (h : exec (.predict pc) s = .next t) :
    ∃ p x, schemePredict s pc = some (p, x) ∧
      t = respond p { s with scheme := x, pendPc := pc, opState := .pending } := by
  rcases execPredict_next h with ⟨h', -⟩ | ⟨h', -⟩ | ⟨h', -⟩ | ⟨p, x, -, hp, rfl⟩
  · simp [hs] at h'
  · simp [hs] at h'
  · simp [hs] at h'
  · exact ⟨p, x, hp, rfl⟩

/-- Outside the perceptron the PREDICT body writes no scheme state. -/
theorem schemePredict_scheme {s : State} {pc : Word} {p : Bool} {x : Option SchemeState}
    (h : schemePredict s pc = some (p, x)) (ha : s.activeScheme ≠ some .custom) : x = s.scheme := by
  rcases schemePredict_some h with ⟨-, -, hx⟩ | ⟨_, -, -, -, hx⟩ | ⟨_, -, -, -, hx⟩ | ⟨_, _, ha', -⟩
  · exact hx
  · exact hx
  · exact hx
  · exact absurd ha' ha

/-- The perceptron's PREDICT body writes the two latches only. -/
theorem schemePredict_perceptron {s : State} {pc : Word} {p : Bool} {x : Option SchemeState}
    (h : schemePredict s pc = some (p, x)) (ha : s.activeScheme = some .custom) :
    ∃ q q', s.scheme = some (.perceptron q) ∧ x = some (.perceptron q') ∧ q'.phr = q.phr ∧ q'.wt = q.wt := by
  rcases schemePredict_some h with ⟨h', -⟩ | ⟨_, h', -⟩ | ⟨_, h', -⟩ | ⟨q, q', -, hq, hp, hx⟩
  · simp [ha] at h'
  · simp [ha] at h'
  · simp [ha] at h'
  · have hw := percPredict_some hp
    exact ⟨q, q', hq, hx, (congrArg Perceptron.phr hw :), (congrArg Perceptron.wt hw :)⟩

/-- Settles O29, from what the scheme's PREDICT body writes. -/
theorem predictWritesNoTableOrHistory : Obligations.PredictWritesNoTableOrHistory := by
  intro s t pc hs h
  obtain ⟨p, x, hp, rfl⟩ := predict_ready_next hs h
  refine ⟨rfl, rfl, rfl, rfl, rfl, rfl, rfl, rfl, rfl, rfl, rfl, rfl, rfl, schemePredict_scheme hp, fun ha => ?_⟩
  obtain ⟨q, q', hq, hx, hphr, hwt⟩ := schemePredict_perceptron hp ha
  exact ⟨q, q', hq, hx, hphr, fun r => by rw [hwt]⟩

/-! ### TRAIN (41_engine.md R138, R140) -/

/-- A TRAIN of the pending pc that answers in PENDING completes. -/
theorem train_pending_next {s t : State} {o : Bool} (hs : s.opState = .pending)
    (h : exec (.train s.pendPc o) s = .next t) :
    ∃ x, schemeTrain s s.pendPc o = some x ∧ t = respond false { s with scheme := x, opState := .ready } := by
  rcases execTrain_next h with ⟨h', -⟩ | ⟨h', -⟩ | ⟨h', -⟩ | ⟨-, h', -⟩ | ⟨x, -, -, hx, rfl⟩
  · simp [hs] at h'
  · simp [hs] at h'
  · simp [hs] at h'
  · exact absurd rfl h'
  · exact ⟨x, hx, rfl⟩

/-- GShare TRAIN writes the PHT at gidx of the pre-update history only (42_gshare.md R162). -/
theorem gshareTrain_read_ne {h : Nat} {g g' : GShare} {pc : Word} {o : Bool} (ht : gshareTrain h g pc o = some g')
    (j : Nat) (hj : j ≠ gidx h g.ghr pc) : g'.pht.read j = g.pht.read j := by
  obtain ⟨v, -, hw, -⟩ := gshareTrain_some ht
  exact Table.read_write_ne hw hj

/-- Tournament TRAIN writes each table at its index of the pre-update state only (43_tournament.md R185). -/
theorem tourTrain_read_ne {h l p : Nat} {x : Bool} {u u' : Tournament} {pc : Word} {o : Bool}
    (ht : tourTrain h l p x u pc o = some u') :
    (∀ j, j ≠ u.ghr → u'.chooser.read j = u.chooser.read j) ∧
    (∀ j, j ≠ tgidx h x u.ghr pc → u'.gpht.read j = u.gpht.read j) ∧
    (∀ j, j ≠ lslot p pc → u'.lht.read j = u.lht.read j) ∧
    ∀ j, j ≠ u.lht.entry (lslot p pc) → u'.lpht.read j = u.lpht.read j := by
  obtain ⟨lh, gv, lv, hlh, -, -, hchooser, hgpht, hlpht, hlht, -⟩ := tourTrain_some ht
  obtain ⟨-, rfl⟩ := Table.read_eq_some.mp hlh
  exact ⟨fun _ hj => trainChooser_read_ne hchooser hj, fun _ hj => Table.read_write_ne hgpht hj,
    fun _ hj => Table.read_write_ne hlht hj, fun _ hj => Table.read_write_ne hlpht hj⟩

/-- Settles O30, scheme by scheme. -/
theorem trainWritesOnlyTheIndexedEntries : Obligations.TrainWritesOnlyTheIndexedEntries := by
  intro s t o hs h
  obtain ⟨x, hx, rfl⟩ := train_pending_next hs h
  refine ⟨rfl, rfl, rfl, rfl, rfl, rfl, rfl, rfl, rfl, rfl, rfl, rfl, rfl, ?_⟩
  rcases schemeTrain_some hx with ⟨ha, rfl⟩ | ⟨g, g', ha, hg, ht, rfl⟩ | ⟨u, u', ha, hu, ht, rfl⟩ |
    ⟨q, q', ha, hq, ht, rfl⟩
  · simp [ha]
  · have writes := gshareTrain_read_ne ht
    simpa [ha, hg] using writes
  · have writes := tourTrain_read_ne ht
    simpa [ha, hu] using writes
  · obtain ⟨hq', writes⟩ := percTrain_some ht
    have latches : q'.lastPred = q.lastPred ∧ q'.lastMag = q.lastMag :=
      ⟨(congrArg Perceptron.lastPred hq' :), (congrArg Perceptron.lastMag hq' :)⟩
    simpa [ha, hq, latches] using writes

/-! ### Which commands write what (10_state.md R45) -/

/-- Settles O31: of what a step can do, only a completing command and rst write any of it. -/
theorem onlyTheNamedCommandsWriteEachState : Obligations.OnlyTheNamedCommandsWriteEachState := by
  intro s t h
  rcases step_cases h with ⟨-, rfl⟩ | ⟨rest, hi, rfl⟩ | ⟨w, c, rest, hi⟩
  · exact ⟨rfl, fun _ => ⟨(absurd rfl ·), (absurd rfl ·), (absurd rfl ·)⟩⟩
  · exact ⟨rfl, fun hr => absurd hi (hr rest)⟩
  · rcases step_command_next hi h with ⟨-, rfl⟩ | ⟨code, d, -, -, -, hf⟩ | ⟨i, hd, hc⟩
    · exact ⟨rfl, fun _ => ⟨(absurd rfl ·), (absurd rfl ·), (absurd rfl ·)⟩⟩
    · cases hf
      exact ⟨rfl, fun _ => ⟨(absurd rfl ·), (absurd rfl ·), (absurd rfl ·)⟩⟩
    · refine ⟨hc.frame.1, fun _ => ?_⟩
      cases hc with
      | init hs hck =>
        exact ⟨fun _ => ⟨w, c, rest, hi, hd, hs, rfl⟩, fun _ => ⟨w, c, rest, hi, .inl ⟨hd, hs, rfl⟩⟩,
          fun _ => ⟨w, c, rest, hi, .inl ⟨hd, hs, rfl⟩⟩⟩
      | predict pc p x hs hp =>
        refine ⟨(absurd rfl ·), fun _ => ⟨w, c, rest, hi, .inr ⟨hd, hs, rfl⟩⟩, fun hne => ?_⟩
        have hcustom : s.activeScheme = some .custom := by
          by_contra ha
          exact hne (schemePredict_scheme hp ha)
        exact ⟨w, c, rest, hi, .inr (.inr ⟨⟨pc, hd⟩, hs, rfl, hcustom⟩)⟩
      | train o x hs hx =>
        exact ⟨(absurd rfl ·), (absurd rfl ·),
          fun _ => ⟨w, c, rest, hi, .inr (.inl ⟨⟨o, hd⟩, hs, rfl⟩)⟩⟩

end Sys2Proof.Machine

/-! PROOFS. What PREDICT and TRAIN read of the configuration (10_state.md R25, R26; 30_encoding.md R85). -/

namespace Sys2Proof.Machine

/-- `s` with other values in CFG0 to CFG4 and on the cfg port. -/
abbrev State.withCfg (s : State) (c0 c1 c2 c3 c4 : Word) (c : CfgRecord) : State :=
  { s with cfg0 := c0, cfg1 := c1, cfg2 := c2, cfg3 := c3, cfg4 := c4, cfgPort := c }

/-- The scheme state and the fields that the active scheme reads are the same in both states. -/
structure SchemeReadsAlike (s u : State) : Prop where
  scheme : u.scheme = s.scheme
  active : u.activeScheme = s.activeScheme
  gshare : s.activeScheme = some .gshare → u.histBits = s.histBits
  tournament : s.activeScheme = some .tournament → u.histBits = s.histBits ∧ u.localBits = s.localBits ∧
    u.pcBits = s.pcBits ∧ cfgTourXor u.cfg0 = cfgTourXor s.cfg0
  custom : s.activeScheme = some .custom → cfgPercHash u.cfg0 = cfgPercHash s.cfg0 ∧ u.percRows = s.percRows ∧
    u.percHist = s.percHist ∧ u.percTheta = s.percTheta ∧ u.percClamp = s.percClamp

/-- The PREDICT body reads the fields of its scheme only. -/
theorem SchemeReadsAlike.schemePredict_eq {s u : State} (h : SchemeReadsAlike s u) (pc : Word) :
    schemePredict u pc = schemePredict s pc := by
  unfold schemePredict
  rw [h.scheme, h.active]
  split
  · rfl
  · rw [h.gshare (by assumption)]
  · obtain ⟨hh, -, hp, hx⟩ := h.tournament (by assumption)
    rw [hh, hp, hx]
  · obtain ⟨hx, he, hk, -⟩ := h.custom (by assumption)
    rw [hx, he, hk]
  · rfl

/-- The TRAIN body reads the fields of its scheme only. -/
theorem SchemeReadsAlike.schemeTrain_eq {s u : State} (h : SchemeReadsAlike s u) (pc : Word) (o : Bool) :
    schemeTrain u pc o = schemeTrain s pc o := by
  unfold schemeTrain
  rw [h.scheme, h.active]
  split
  · rfl
  · rw [h.gshare (by assumption)]
  · obtain ⟨hh, hl, hp, hx⟩ := h.tournament (by assumption)
    rw [hh, hl, hp, hx]
  · obtain ⟨hx, he, hk, ht, hw⟩ := h.custom (by assumption)
    rw [hx, he, hk, ht, hw]
  · rfl

section
variable {s t : State} {c0 c1 c2 c3 c4 : Word} {c : CfgRecord}

/-- PREDICT reads the configuration in its body only, and never the cfg port. -/
theorem exec_predict_withCfg {pc : Word} (hb : SchemeReadsAlike s (s.withCfg c0 c1 c2 c3 c4 c))
    (h : exec (.predict pc) s = .next t) :
    exec (.predict pc) (s.withCfg c0 c1 c2 c3 c4 c) = .next (t.withCfg c0 c1 c2 c3 c4 c) := by
  rcases execPredict_next h with ⟨hs, rfl⟩ | ⟨hs, hf⟩ | ⟨hs, hf⟩ | ⟨p, x, hs, hp, rfl⟩
  · simp only [exec, execPredict, hs]; rfl
  · cases hf; simp only [exec, execPredict, hs]; rfl
  · cases hf; simp only [exec, execPredict, hs]; rfl
  · exact exec_predict_ready hs ((hb.schemePredict_eq pc).trans hp)

/-- TRAIN reads the configuration in its body only, and never the cfg port. -/
theorem exec_train_withCfg {pc : Word} {o : Bool} (hb : SchemeReadsAlike s (s.withCfg c0 c1 c2 c3 c4 c))
    (h : exec (.train pc o) s = .next t) :
    exec (.train pc o) (s.withCfg c0 c1 c2 c3 c4 c) = .next (t.withCfg c0 c1 c2 c3 c4 c) := by
  rcases execTrain_next h with ⟨hs, rfl⟩ | ⟨hs, hf⟩ | ⟨hs, hf⟩ | ⟨hs, hpc, hf⟩ | ⟨x, hs, rfl, hx, rfl⟩
  · simp only [exec, execTrain, hs]; rfl
  · cases hf; simp only [exec, execTrain, hs]; rfl
  · cases hf; simp only [exec, execTrain, hs]; rfl
  · cases hf; simp only [exec, execTrain, hs, if_pos hpc]; rfl
  · exact exec_train_pending (s := s.withCfg c0 c1 c2 c3 c4 c) hs ((hb.schemeTrain_eq s.pendPc o).trans hx)

end

/-- Settles O33: the changed state reads alike to the active scheme. -/
theorem unusedConfigurationIsNeverRead : Obligations.UnusedConfigurationIsNeverRead := by
  intro s t c0 c1 c2 c3 c4 c i hi hcode hg ht hc h
  have alike : SchemeReadsAlike s (s.withCfg c0 c1 c2 c3 c4 c) :=
    { scheme := rfl
      active := congrArg schemeOfCode hcode
      gshare := hg
      tournament := ht
      custom := fun ha => by
        obtain ⟨hx, rfl, rfl, rfl, rfl⟩ := hc ha
        exact ⟨hx, rfl, rfl, rfl, rfl⟩ }
  cases i with
  | init => exact absurd rfl hi
  | predict pc => exact exec_predict_withCfg alike h
  | train pc o => exact exec_train_withCfg alike h

end Sys2Proof.Machine

/-! PROOFS. Layouts: STATUS, the configuration record, and the storage of a weight. -/

namespace Sys2Proof.Machine

/-! ### STATUS (10_state.md R28) -/

/-- The five fields of a STATUS word. -/
theorem statusWord_fields (o : OpState) (c : FaultCode) (d : FaultDetail) :
    (statusWord o c d).extractLsb' 0 2 = o.bits ∧ (statusWord o c d).extractLsb' 2 6 = 0#6 ∧
    (statusWord o c d).extractLsb' 8 8 = c.bits ∧ (statusWord o c d).extractLsb' 16 8 = d.bits ∧
    (statusWord o c d).extractLsb' 24 8 = 0#8 := by
  refine ⟨BitVec.extractLsb'_append_eq_right, ?_, ?_, ?_, ?_⟩
  · rw [statusWord, BitVec.extractLsb'_append_eq_of_le (by decide)]
    exact BitVec.extractLsb'_append_eq_right
  · rw [statusWord, BitVec.extractLsb'_append_eq_of_le (by decide), BitVec.extractLsb'_append_eq_of_le (by decide)]
    exact BitVec.extractLsb'_append_eq_right
  · rw [statusWord, BitVec.extractLsb'_append_eq_of_le (by decide), BitVec.extractLsb'_append_eq_of_le (by decide),
      BitVec.extractLsb'_append_eq_of_le (by decide)]
    exact BitVec.extractLsb'_append_eq_right
  · rw [statusWord, BitVec.extractLsb'_append_eq_of_le (by decide), BitVec.extractLsb'_append_eq_of_le (by decide),
      BitVec.extractLsb'_append_eq_of_le (by decide)]
    exact BitVec.extractLsb'_append_eq_left

/-- A step on a command word ends in an answer to it (41_engine.md R130). -/
theorem step_command_responds {s t : State} {w : CmdWord} {c : CfgRecord} {rest : List Input}
    (hi : s.inputs = .command w c :: rest) (h : step s = .next t) : ∃ p u, t = respond p u := by
  rcases step_command_next hi h with ⟨-, rfl⟩ | ⟨code, d, -, -, -, hf⟩ | ⟨i, -, hc⟩
  · exact ⟨_, _, rfl⟩
  · cases hf; exact ⟨_, _, rfl⟩
  · cases hc <;> exact ⟨_, _, rfl⟩

/-- Settles O12: the fields by the layout of STATUS, the response by the answer that ends every command. -/
theorem statusShowsStateAndFault : Obligations.StatusShowsStateAndFault := by
  refine ⟨fun s => statusWord_fields _ _ _, by decide, fun s => ?_, fun s t w c rest hi h => ?_⟩
  · obtain ⟨hstate, -, hcode, hdetail, -⟩ := statusWord_fields s.opState s.fcode s.fdetail
    refine ⟨hstate.trans ?_, hcode.trans ?_, hdetail.trans ?_⟩
    · cases s.opState <;> rfl
    · cases s.fcode <;> rfl
    · cases s.fdetail <;> rfl
  · obtain ⟨p, u, rfl⟩ := step_command_responds hi h
    exact ⟨_, rfl, respStatus_respWord p (status u)⟩

/-! ### The configuration record (10_state.md R25, R26; 30_encoding.md R86) -/

/-- The seven fields of CFG0 as the assembler packs them (10_state.md R25). -/
theorem ConfigFields.cfg0_fields (f : ConfigFields) :
    f.cfg0.extractLsb' 0 3 = BitVec.ofNat 3 f.scheme ∧ f.cfg0.extractLsb' 3 5 = BitVec.ofNat 5 f.h ∧
    f.cfg0.extractLsb' 8 5 = BitVec.ofNat 5 f.l ∧ f.cfg0.extractLsb' 13 5 = BitVec.ofNat 5 f.p ∧
    f.cfg0.extractLsb' 18 1 = BitVec.ofNat 1 f.tourXor ∧ f.cfg0.extractLsb' 19 1 = BitVec.ofNat 1 f.percHash ∧
    f.cfg0.extractLsb' 20 12 = 0#12 := by
  unfold ConfigFields.cfg0
  refine ⟨BitVec.extractLsb'_append_eq_right, ?_, ?_, ?_, ?_, ?_, ?_⟩
  · rw [BitVec.extractLsb'_append_eq_of_le (by decide)]
    exact BitVec.extractLsb'_append_eq_right
  · iterate 2 rw [BitVec.extractLsb'_append_eq_of_le (by decide)]
    exact BitVec.extractLsb'_append_eq_right
  · iterate 3 rw [BitVec.extractLsb'_append_eq_of_le (by decide)]
    exact BitVec.extractLsb'_append_eq_right
  · iterate 4 rw [BitVec.extractLsb'_append_eq_of_le (by decide)]
    exact BitVec.extractLsb'_append_eq_right
  · iterate 5 rw [BitVec.extractLsb'_append_eq_of_le (by decide)]
    exact BitVec.extractLsb'_append_eq_right
  · iterate 5 rw [BitVec.extractLsb'_append_eq_of_le (by decide)]
    exact BitVec.extractLsb'_append_eq_left

/-- A one-bit field that holds 0 or 1 reads as whether it is 1. -/
theorem getLsbD_of_extractLsb'_one {c0 : Word} {i n : Nat} (h : c0.extractLsb' i 1 = BitVec.ofNat 1 n) (hn : n < 2) :
    c0.getLsbD i = decide (n = 1) := by
  have hbit : c0.getLsbD i = (BitVec.ofNat 1 n).getLsbD 0 := by rw [← h]; simp
  rw [hbit]
  have : n = 0 ∨ n = 1 := by omega
  rcases this with rfl | rfl <;> rfl

/-- Settles O5: each field is the low bits of a number that fits them. -/
theorem configFieldsReadBack : Obligations.ConfigFieldsReadBack := by
  intro f hf
  simp only [ConfigFields.fits, Bool.and_eq_true, decide_eq_true_eq] at hf
  obtain ⟨⟨⟨⟨⟨⟨⟨⟨⟨hs, hh⟩, hl⟩, hp⟩, hx⟩, hph⟩, he⟩, hk⟩, hth⟩, hw⟩ := hf
  obtain ⟨fs, fh, fl, fp, fx, fph, fr⟩ := f.cfg0_fields
  simp only [ConfigFields.record, recordWord_recordOf_0, recordWord_recordOf_1, recordWord_recordOf_2,
    recordWord_recordOf_3, recordWord_recordOf_4]
  exact ⟨(congrArg BitVec.toNat fs).trans (Nat.mod_eq_of_lt hs), (congrArg BitVec.toNat fh).trans (Nat.mod_eq_of_lt hh),
    (congrArg BitVec.toNat fl).trans (Nat.mod_eq_of_lt hl), (congrArg BitVec.toNat fp).trans (Nat.mod_eq_of_lt hp),
    getLsbD_of_extractLsb'_one fx hx, getLsbD_of_extractLsb'_one fph hph, fr, Nat.mod_eq_of_lt he,
    Nat.mod_eq_of_lt hk, Nat.mod_eq_of_lt hth, Nat.mod_eq_of_lt hw⟩

/-! ### The storage of a weight (10_state.md R40) -/

/-- Settles O43: WBITS - 1 is the upper logarithm of W. -/
theorem weightsFitTheirStorage : Obligations.WeightsFitTheirStorage := by
  intro w _
  have hfit : w ≤ 2 ^ Nat.clog 2 w := Nat.le_pow_clog (by decide) w
  refine ⟨⟨Nat.le_add_left 1 _, hfit, fun n hn hle => ?_⟩, fun x hlo hhi => ?_⟩
  · have := Nat.clog_le_of_le_pow hle
    simp only [weightBits]
    omega
  · have hfit' : (w : Int) ≤ (2 : Int) ^ Nat.clog 2 w := by exact_mod_cast hfit
    exact BitVec.toInt_ofInt_eq_self (Nat.succ_pos _) ((neg_le_neg hfit').trans hlo)
      ((Int.lt_of_le_sub_one hhi).trans_le hfit')

end Sys2Proof.Machine

/-! PROOFS. Tables: a write is read back and nothing else changes, and reads determine a table (20_memory.md R62). -/

namespace Sys2Proof.Machine

/-- Settles O45: in range by what a table reads as after a write, out of range by the two INDEX_RANGE laws. -/
theorem tableReadsAfterWrite : Obligations.TableReadsAfterWrite := by
  intro α _ t i v hw
  refine ⟨fun hi => ?_, fun hi => ⟨Table.read_of_le hi, Table.write_of_le v hi⟩⟩
  obtain ⟨t', ht⟩ := Table.write_of_lt v hi
  obtain ⟨-, hsize, -, hwf, -⟩ := Table.write_spec hw ht
  exact ⟨t', ht, hwf, hsize, (Table.read_write hw ht i).trans (if_pos rfl), fun _ hj => Table.read_write_ne ht hj⟩

/-! ### The canonical form is determined by the reads (log entry 7) -/

/-- In a list of rising indices a lookup finds exactly the cells that are listed. -/
theorem cellsFind_eq_some {α : Type} {cs : List (Nat × α)} (hs : cs.Pairwise (fun a b => a.1 < b.1)) {i : Nat}
    {v : α} : cellsFind cs i = some v ↔ (i, v) ∈ cs := by
  induction cs with
  | nil => simp [cellsFind]
  | cons c cs ih =>
    obtain ⟨k, w⟩ := c
    obtain ⟨hk, hs⟩ := List.pairwise_cons.mp hs
    rw [cellsFind]
    split
    · rename_i he
      subst he
      have unlisted : (k, v) ∉ cs := fun h => Nat.lt_irrefl k (hk _ h)
      simp [unlisted, eq_comm]
    · rename_i hne
      simp [ih hs, Ne.symm hne]

/-- The cells of a table in canonical form are the entries that read as something else than the fill value. -/
theorem Table.mem_cells {α : Type} {t : Table α} (hw : t.wf) {i : Nat} {v : α} :
    (i, v) ∈ t.cells ↔ v ≠ t.fill ∧ t.read i = some v := by
  obtain ⟨hs, hc⟩ := hw
  rw [Table.read_eq_some, Table.entry]
  constructor
  · intro h
    obtain ⟨hi, hv⟩ := hc _ h
    exact ⟨hv, hi, by rw [(cellsFind_eq_some hs).mpr h]; rfl⟩
  · rintro ⟨hv, -, he⟩
    rw [← cellsFind_eq_some hs]
    cases hf : cellsFind t.cells i with
    | none => exact absurd (by simpa [hf] using he.symm) hv
    | some u => simpa [hf] using he

/-- Settles O46: equal reads list the same cells, and a rising list is determined by its members. -/
theorem equalReadsAreEqualTables : Obligations.EqualReadsAreEqualTables := by
  intro α t u ht hu hsize hfill hread
  have same : ∀ c, c ∈ t.cells ↔ c ∈ u.cells := fun ⟨i, v⟩ => by
    rw [Table.mem_cells ht, Table.mem_cells hu, hfill, hread]
  have rising : Std.Asymm fun a b : Nat × α => a.1 < b.1 := ⟨fun _ _ => Nat.lt_asymm⟩
  have hcells : t.cells = u.cells := ht.1.eq_of_mem_iff hu.1 same
  cases t
  cases u
  exact (Table.mk.injEq ..).mpr ⟨hsize, hfill, hcells⟩

end Sys2Proof.Machine

/-! PROOFS. The encoding: the rows of the table, the legal words, and the response (30_encoding.md). -/

namespace Sys2Proof.Machine

/-! ### Decode and encode (30_encoding.md R84, R88) -/

/-- The word of a command decodes to it (30_encoding.md R84). -/
@[simp] theorem decode_encode (i : Instr) : decode (encode i) = some i := by
  cases i with
  | init => decide
  | predict pc =>
    rw [encode_predict, decode_halves_eq_some]
    exact .inr (.inl ⟨rfl, rfl⟩)
  | train pc o =>
    rw [encode_train, decode_halves_eq_some]
    cases o
    · exact .inr (.inr (.inl ⟨rfl, rfl⟩))
    · exact .inr (.inr (.inr ⟨rfl, rfl⟩))

/-- Settles O1, command by command one way, and by the halves of the word the other. -/
theorem decodeAndEncodeAgree : Obligations.DecodeAndEncodeAgree :=
  ⟨decode_encode, fun _ _ => encode_of_decode⟩

/-! ### The rows of the encoding table (30_encoding.md R83) -/

/-- INIT's row fixes both halves. -/
theorem initRow_halves (hi lo : BitVec 32) :
    (hi ++ lo) &&& 0xFFFFFFFFFFFFFFFF#64 = 0x0000000000000001#64 ↔ hi = 0#32 ∧ lo = 1#32 := by
  have ones : (0xFFFFFFFFFFFFFFFF#64 : CmdWord) = BitVec.allOnes 64 := rfl
  rw [ones, BitVec.and_allOnes]
  exact halves_inj (c := 0#32) (d := 1#32)

/-- PREDICT's row fixes the low half only. -/
theorem predictRow_halves (hi lo : BitVec 32) :
    (hi ++ lo) &&& 0x00000000FFFFFFFF#64 = 0x0000000000000002#64 ↔ lo = 2#32 := by
  have halves : (hi ++ lo) &&& (0#32 ++ BitVec.allOnes 32) = 0#32 ++ 2#32 ↔ lo = 2#32 := by
    rw [BitVec.and_append, BitVec.and_zero, BitVec.and_allOnes, halves_inj]
    exact and_iff_right rfl
  exact halves

/-- TRAIN's row fixes the low half but for OUT. -/
theorem trainRow_halves (hi lo : BitVec 32) :
    (hi ++ lo) &&& 0x00000000FFFFFFF7#64 = 0x0000000000000003#64 ↔ lo = 3#32 ∨ lo = 11#32 := by
  have halves : (hi ++ lo) &&& (0#32 ++ 0xFFFFFFF7#32) = 0#32 ++ 3#32 ↔ lo = 3#32 ∨ lo = 11#32 := by
    rw [BitVec.and_append, BitVec.and_zero, halves_inj, train_low]
    exact and_iff_right rfl
  exact halves

/-- The two low halves of TRAIN's row differ in OUT. -/
theorem train_low_and_out (lo : BitVec 32) (o : Bool) :
    (lo = 3#32 ∨ lo = 11#32) ∧ o = lo.getLsbD 3 ↔ (o = false ∧ lo = 3#32) ∨ (o = true ∧ lo = 11#32) := by
  constructor
  · rintro ⟨rfl | rfl, rfl⟩
    · exact .inl ⟨rfl, rfl⟩
    · exact .inr ⟨rfl, rfl⟩
  · rintro (⟨rfl, rfl⟩ | ⟨rfl, rfl⟩)
    · exact ⟨.inl rfl, rfl⟩
    · exact ⟨.inr rfl, rfl⟩

/-- Settles O2: on the halves of the word, what decodes and what matches a row are the same low halves, and the rows
have no low half in common. -/
theorem wordsMatchTheEncodingTable : Obligations.WordsMatchTheEncodingTable := by
  intro w
  rw [word_halves w]
  generalize w.extractLsb' 32 32 = hi, w.extractLsb' 0 32 = lo
  obtain ⟨hpc, -, hout, -⟩ := fields_halves hi lo
  rw [initRow_halves, predictRow_halves, trainRow_halves, hpc, hout]
  refine ⟨?_, fun pc => ?_, fun pc o => ?_, ?_, ?_, ?_⟩
  · simp [decode_halves_eq_some]
  · simp [decode_halves_eq_some, and_comm]
  · rw [and_left_comm, train_low_and_out]
    simp [decode_halves_eq_some, and_or_left, and_assoc]
  · rintro ⟨⟨-, rfl⟩, h⟩
    exact absurd h (by decide)
  · rintro ⟨⟨-, rfl⟩, h⟩
    exact absurd h (by decide)
  · rintro ⟨rfl, h⟩
    exact absurd h (by decide)

/-! ### The illegal words (30_encoding.md R87) -/

/-- A word is put together again from its fields (30_encoding.md R81). -/
theorem toWord_ofWord (w : CmdWord) : (CmdFields.ofWord w).toWord = w := by
  rw [word_halves w]
  generalize w.extractLsb' 32 32 = hi, w.extractLsb' 0 32 = lo
  obtain ⟨hpc, hrsv, hout, hop⟩ := fields_halves hi lo
  rw [CmdFields.ofWord, CmdFields.toWord, hpc, hrsv, hout, hop]
  conv_rhs => rw [low_eq_fields lo]
  rw [BitVec.append_assoc, BitVec.append_assoc, BitVec.append_assoc]
  rfl

/-- Fields that pass every check are the fields of a command (30_encoding.md R82). -/
theorem exists_instr_of_wellFormed {f : CmdFields} (h : f.wellFormed = true) : ∃ i : Instr, i.fields = f := by
  obtain ⟨op, out, rsv, pc⟩ := f
  simp only [CmdFields.wellFormed, CmdFields.opOk, CmdFields.rsvOk, CmdFields.outOk, CmdFields.pcOk,
    Bool.and_eq_true, Bool.or_eq_true, beq_iff_eq] at h
  obtain ⟨⟨⟨(rfl | rfl) | rfl, rfl⟩, hout⟩, hpc⟩ := h
  · obtain rfl : out = false := by simpa using hout
    obtain rfl : pc = 0#32 := by simpa using hpc
    exact ⟨.init, rfl⟩
  · obtain rfl : out = false := by simpa using hout
    exact ⟨.predict pc, rfl⟩
  · exact ⟨.train pc out, rfl⟩

/-- The fields of a command's word pass every check. -/
theorem wellFormed_ofWord_encode (i : Instr) : (CmdFields.ofWord (encode i)).wellFormed = true := by
  have fields : Laws.FieldsWellFormed.Statement i := by
    cases i with
    | init => exact Laws.FieldsWellFormed.init
    | predict pc => exact Laws.FieldsWellFormed.predict pc
    | train pc o => exact Laws.FieldsWellFormed.train pc o
  obtain ⟨hf, hok⟩ := fields
  rw [hf]
  exact hok

/-- The decoder refuses exactly the words whose fields fail a check. -/
theorem decode_eq_none_iff (w : CmdWord) : decode w = none ↔ (CmdFields.ofWord w).wellFormed = false := by
  constructor
  · intro h
    by_contra hok
    obtain ⟨i, hi⟩ := exists_instr_of_wellFormed (Bool.eq_true_of_not_eq_false hok)
    have hw : encode i = w := (congrArg CmdFields.toWord hi).trans (toWord_ofWord w)
    rw [← hw, decode_encode] at h
    cases h
  · intro hbad
    cases h : decode w with
    | none => rfl
    | some i =>
      rw [← encode_of_decode h, wellFormed_ofWord_encode] at hbad
      cases hbad

/-- The four ways in which fields are ill-formed (30_encoding.md R87). -/
theorem wellFormed_eq_false_iff (f : CmdFields) :
    f.wellFormed = false ↔
      (f.op = 0#3 ∨ 4 ≤ f.op.toNat) ∨ f.rsv ≠ 0#28 ∨ (f.out = true ∧ (f.op = 1#3 ∨ f.op = 2#3)) ∨
      (f.pc ≠ 0#32 ∧ f.op = 1#3) := by
  have hop : f.opOk = false ↔ f.op = 0#3 ∨ 4 ≤ f.op.toNat := by
    unfold CmdFields.opOk
    generalize f.op = op
    revert op
    decide
  have hrsv : f.rsvOk = false ↔ f.rsv ≠ 0#28 := by simp [CmdFields.rsvOk]
  have hout : f.outOk = false ↔ f.out = true ∧ (f.op = 1#3 ∨ f.op = 2#3) := by
    simp [CmdFields.outOk, or_iff_not_imp_left]
  have hpc : f.pcOk = false ↔ f.pc ≠ 0#32 ∧ f.op = 1#3 := by simp [CmdFields.pcOk]
  simp only [CmdFields.wellFormed, Bool.and_eq_false_iff, hop, hrsv, hout, hpc, or_assoc]

/-- A step on a presented command processes its word with its record on the cfg port (41_engine.md R130). -/
theorem step_command {s : State} {w : CmdWord} {c : CfgRecord} {rest : List Input}
    (hi : s.inputs = .command w c :: rest) : step s = runCommand w { s with inputs := rest, cfgPort := c } := by
  rw [step, takeNext, hi]
  rfl

/-- Settles O3: a word decodes to nothing when its fields are ill-formed, and then the step is the fault entry. -/
theorem illegalWordsTakeIllegalCommand : Obligations.IllegalWordsTakeIllegalCommand := by
  refine ⟨fun w => (decode_eq_none_iff w).trans (wellFormed_eq_false_iff _), fun s w c rest hi hs hd => ?_⟩
  rw [step_command hi, runCommand, if_neg hs, hd]
  rfl

/-! ### The response (30_encoding.md R90) -/

/-- Bit [0] of a response is PRED. -/
theorem respWord_pred (p : Bool) (st : Word) : (respWord p st).getLsbD 0 = p := respPred_respWord p st

/-- STATUS.STATE as a response carries it is 3 exactly in FAULTED. -/
theorem respWord_state_faulted (p : Bool) (s : State) :
    (respWord p (status s)).extractLsb' 1 2 = 3#2 ↔ s.opState = .faulted := by
  obtain ⟨hstate, -⟩ := statusWord_fields s.opState s.fcode s.fdetail
  have hbits : (respWord p (status s)).extractLsb' 1 2 = s.opState.bits := by
    rw [respWord, BitVec.extractLsb'_append_eq_of_le (by decide)]
    exact hstate
  rw [hbits]
  cases s.opState <;> decide

/-- A PREDICT presented in READY that has a next state answers what its body predicts (41_engine.md R137). -/
theorem step_predict_ready_next {s t : State} {w : CmdWord} {c : CfgRecord} {rest : List Input} {pc : Word}
    (hi : s.inputs = .command w c :: rest) (hd : decode w = some (.predict pc)) (hs : s.opState = .ready)
    (h : step s = .next t) :
    ∃ p x, schemePredict s pc = some (p, x) ∧
      t = respond p
        { s with inputs := rest, cfgPort := c, scheme := x, pendPc := pc, opState := .pending } := by
  have hne : s.opState ≠ .faulted := by simp [hs]
  rw [step_command hi, runCommand, if_neg hne, hd] at h
  exact predict_ready_next (s := { s with inputs := rest, cfgPort := c }) hs h

/-- Any other presented word is answered with PRED = 0. -/
theorem step_other_next {s t : State} {w : CmdWord} {c : CfgRecord} {rest : List Input}
    (hi : s.inputs = .command w c :: rest) (hw : (∀ pc, decode w ≠ some (.predict pc)) ∨ s.opState ≠ .ready)
    (h : step s = .next t) : ∃ u, t = respond false u := by
  rcases step_command_next hi h with ⟨-, rfl⟩ | ⟨code, d, -, -, -, hf⟩ | ⟨i, hd, hc⟩
  · exact ⟨_, rfl⟩
  · cases hf; exact ⟨_, rfl⟩
  · cases hc with
    | init hs hck => exact ⟨_, rfl⟩
    | predict pc p x hs hp => exact (hw.elim (· pc hd) (· hs)).elim
    | train o x hs hx => exact ⟨_, rfl⟩

/-- Settles O13: the answer that ends the command is the PREDICT body's in READY, and PRED = 0 in every other case. -/
theorem everyCommandAnswersOneResponse : Obligations.EveryCommandAnswersOneResponse := by
  intro s t w c rest hi h
  by_cases hw : (∀ pc, decode w ≠ some (.predict pc)) ∨ s.opState ≠ .ready
  · obtain ⟨u, rfl⟩ := step_other_next hi hw h
    exact ⟨_, rfl, respStatus_respWord false (status u), respWord_state_faulted false u,
      fun pc hd hs => (hw.elim (· pc hd) (· hs)).elim, fun _ => respWord_pred false (status u)⟩
  · obtain ⟨⟨pc, hd⟩, hs⟩ : (∃ pc, decode w = some (.predict pc)) ∧ s.opState = .ready := by simpa using hw
    obtain ⟨p, x, hp, rfl⟩ := step_predict_ready_next hi hd hs h
    refine ⟨_, rfl, respStatus_respWord p _, respWord_state_faulted p _, fun pc' hd' _ => ?_,
      fun hw' => absurd hw' hw⟩
    obtain rfl : pc' = pc := by simpa [hd] using hd'.symm
    exact ⟨x, by rw [respWord_pred, hp]⟩

/-! ### The example encodings and BRANCH (30_encoding.md R92, R93) -/

/-- Settles O4: every row of the two example tables, evaluated. -/
theorem encodingExamples : Obligations.EncodingExamples := by
  unfold Obligations.EncodingExamples
  decide

/-- Settles O6: the words of the two commands that BRANCH stands for. -/
theorem branchExpandsToPredictThenTrain : Obligations.BranchExpandsToPredictThenTrain := by
  intro c pc o hpc
  rw [assembleLine, if_pos hpc, ← encode_predict, ← encode_train]
  rfl

end Sys2Proof.Machine

/-! PROOFS. The saturating counter and the integer history, over any number of branches (40_counter_history.md). -/

namespace Sys2Proof.Machine

/-! ### The counter (40_counter_history.md R112 to R115) -/

/-- n TAKEN trainings count up by n, saturating at 3. -/
theorem ctrTrain_true_iterate_toNat (v : Counter) (n : Nat) :
    ((ctrTrain · true)^[n] v).toNat = min (v.toNat + n) 3 := by
  induction n with
  | zero => have := v.isLt; simp; omega
  | succ n ih => rw [Function.iterate_succ_apply', ctrTrain_toNat, if_pos rfl, ih]; omega

/-- n NOT-TAKEN trainings count down by n, saturating at 0. -/
theorem ctrTrain_false_iterate_toNat (v : Counter) (n : Nat) :
    ((ctrTrain · false)^[n] v).toNat = v.toNat - n := by
  induction n with
  | zero => rfl
  | succ n ih => rw [Function.iterate_succ_apply', ctrTrain_toNat, if_neg Bool.false_ne_true, ih, Nat.sub_sub]

/-- Settles O35: n trainings as one saturating sum or difference, read at the bounds and at the threshold 2. -/
theorem counterSaturates : Obligations.CounterSaturates := by
  intro v n
  have hup := ctrTrain_true_iterate_toNat v n
  have hdown := ctrTrain_false_iterate_toNat v n
  have hv := v.isLt
  refine ⟨fun hn => ⟨BitVec.eq_of_toNat_eq ?_, BitVec.eq_of_toNat_eq ?_⟩, fun hlow => ?_, fun hhigh => ?_⟩
  · rw [hup, BitVec.toNat_ofNat]; omega
  · rw [hdown, BitVec.toNat_ofNat]; omega
  · rw [ctrPredict_eq, hup, decide_eq_true_iff]; omega
  · rw [ctrPredict_eq, hdown, decide_eq_false_iff_not]; omega

/-- Settles O34: the twelve entries of the table, evaluated. -/
theorem counterTruthTable : Obligations.CounterTruthTable := by
  unfold Obligations.CounterTruthTable
  decide

/-! ### The integer history (40_counter_history.md R117, R118) -/

/-- hist_shift puts the outcome below the history's bits and keeps the low n bits. -/
theorem histShift_eq_bit (h : Nat) (o : Bool) (n : Nat) : histShift h o n = Nat.bit o h % 2 ^ n := by
  rw [histShift_eq, Nat.bit_val]

theorem histShift_testBit_zero (h : Nat) (o : Bool) {n : Nat} (hn : 0 < n) : (histShift h o n).testBit 0 = o := by
  rw [histShift_eq_bit, Nat.testBit_mod_two_pow, Nat.testBit_bit_zero, decide_eq_true hn, Bool.true_and]

theorem histShift_testBit_succ (h : Nat) (o : Bool) {i n : Nat} (hi : i + 1 < n) :
    (histShift h o n).testBit (i + 1) = h.testBit i := by
  rw [histShift_eq_bit, Nat.testBit_mod_two_pow, Nat.testBit_bit_succ, decide_eq_true hi, Bool.true_and]

/-- A history of one bit is the latest outcome. -/
theorem histShift_one (h : Nat) (o : Bool) : histShift h o 1 = o.toNat := by
  rw [histShift_eq, pow_one, Nat.mul_add_mod, Nat.mod_eq_of_lt o.toNat_lt]

/-- Settles O37: the range is the mask's, the bits are those below the new outcome. -/
theorem histShiftKeepsTheWidth : Obligations.HistShiftKeepsTheWidth := by
  intro h o n hn _
  refine ⟨histShift_lt h o n, histShift_testBit_zero h o hn, fun i hi => histShift_testBit_succ h o hi, ?_⟩
  rintro rfl
  rw [histShift_one]
  cases o <;> rfl

/-- The bits of a history are the outcomes, latest first. -/
theorem histShift_foldl_testBit {i n : Nat} (hi : i < n) (os : List Bool) :
    (os.foldl (fun h o => histShift h o n) 0).testBit i = os.reverse.getD i false := by
  induction os using List.reverseRecOn generalizing i with
  | nil => simp
  | append_singleton os o ih =>
    rw [List.foldl_concat, List.reverse_concat]
    cases i with
    | zero => exact histShift_testBit_zero _ o hi
    | succ i => rw [histShift_testBit_succ _ o hi, ih (by omega), List.getD_cons_succ]

/-- Settles O36: the list of outcomes, latest first, read from its other end. -/
theorem integerHistoryHoldsRecentOutcomes : Obligations.IntegerHistoryHoldsRecentOutcomes := by
  intro n os i hi
  rw [histShift_foldl_testBit hi]
  split
  · next hlen => rw [List.getD_reverse i hlen]
  · next hlen => exact List.getD_eq_default _ _ (by simpa using hlen)

end Sys2Proof.Machine

/-! PROOFS. The engine: INIT in UNCONFIGURED, the commands out of order and in order, and runs of branches
(41_engine.md; 70_reset_and_hazards.md). -/

namespace Sys2Proof.Machine

/-! ### The checks of INIT (60_exceptions.md R252, R255) -/

/-- The codes of the FDETAIL table are pairwise different. -/
theorem FaultDetail.bits_injective : Function.Injective FaultDetail.bits := by
  intro d d' h
  revert h
  cases d <;> cases d' <;> decide

/-- INIT reports a detail exactly when it is the first row of the FDETAIL table that applies. -/
theorem configCheck_eq_some_iff {b : Params} {c : CfgRecord} {d : FaultDetail} :
    configCheck b c = some d ↔
      ConfigFault b c d ∧ ∀ d', ConfigFault b c d' → d.bits.toNat ≤ d'.bits.toNat := by
  refine ⟨configCheck_some, fun ⟨hd, hfirst⟩ => ?_⟩
  cases hc : configCheck b c with
  | none => exact absurd hd (configCheck_none hc d)
  | some e =>
    obtain ⟨he, hfirst'⟩ := configCheck_some hc
    have hbits : e.bits = d.bits := BitVec.eq_of_toNat_eq (le_antisymm (hfirst' d hd) (hfirst e he))
    rw [FaultDetail.bits_injective hbits]

/-- INIT accepts a record exactly when no row of the FDETAIL table applies. -/
theorem configCheck_eq_none_iff {b : Params} {c : CfgRecord} :
    configCheck b c = none ↔ ∀ d, ¬ConfigFault b c d := by
  refine ⟨configCheck_none, fun hlegal => ?_⟩
  cases hc : configCheck b c with
  | none => rfl
  | some d => exact absurd (configCheck_some hc).1 (hlegal d)

/-! ### INIT in UNCONFIGURED (41_engine.md R133, R134) -/

/-- INIT on a record that fails a check takes CONFIG_ERROR with that check's detail. -/
theorem exec_init_illegal {s : State} {d : FaultDetail} (hs : s.opState = .unconfigured)
    (hc : configCheck s.params s.cfgPort = some d) :
    exec .init s = raiseFault .configError d (encode .init) s := by
  simp only [exec, execInit, hs, hc]

/-- INIT on a record that passes the checks latches it. -/
theorem exec_init_legal {s : State} (hs : s.opState = .unconfigured) (hc : configCheck s.params s.cfgPort = none) :
    exec .init s = .next (respond false (latchConfig s)) := by
  simp only [exec, execInit, hs, hc]

/-- The record that INIT latches is the one on the cfg port. -/
@[simp] theorem latchConfig_cfgRecord (s : State) : (latchConfig s).cfgRecord = s.cfgPort :=
  recordOf_recordWord s.cfgPort

/-- Settles O14: the check that INIT reports is the first row that applies, and it passes where none does. -/
theorem initReportsTheFirstFailingCheck : Obligations.InitReportsTheFirstFailingCheck := by
  intro s hs
  refine ⟨fun d hd hfirst => ?_, fun hlegal => ?_⟩
  · rw [exec_init_illegal hs (configCheck_eq_some_iff.mpr ⟨hd, hfirst⟩), encode_init]
    rfl
  · exact ⟨_, exec_init_legal hs (configCheck_eq_none_iff.mpr hlegal), rfl⟩

section
variable {c : CfgRecord} (b : Params)

theorem createScheme_static (h : cfgSchemeCode (recordWord c 0) = 0#3) : createScheme b c = some .static := by
  rw [createScheme, h]; rfl

theorem createScheme_gshare (h : cfgSchemeCode (recordWord c 0) = 1#3) :
    createScheme b c = some (.gshare (createGShare b c)) := by
  rw [createScheme, h]; rfl

theorem createScheme_tournament (h : cfgSchemeCode (recordWord c 0) = 2#3) :
    createScheme b c = some (.tournament (createTournament b c)) := by
  rw [createScheme, h]; rfl

theorem createScheme_perceptron (h : cfgSchemeCode (recordWord c 0) = 3#3) :
    createScheme b c = some (.perceptron (createPerceptron c)) := by
  rw [createScheme, h]; rfl

end

/-- The weight table that INIT creates has a row of zeros, K+1 of them, at every index below E and at no other. -/
theorem createPerceptron_rows (c : CfgRecord) :
    (∀ r, r < (recordWord c 1).toNat → ∃ row, (createPerceptron c).wt.read r = some row ∧
      row.length = (recordWord c 2).toNat + 1 ∧ ∀ x ∈ row, x = 0) ∧
    ∀ r, (recordWord c 1).toNat ≤ r → (createPerceptron c).wt.read r = none :=
  ⟨fun _ hr => ⟨_, if_pos hr, List.length_replicate, fun _ hx => List.eq_of_mem_replicate hx⟩,
    fun _ hr => if_neg (Nat.not_lt.mpr hr)⟩

/-- Settles O16: the record selects one variant, and each variant is created filled with its initial values. -/
theorem initCreatesTheSchemeState : Obligations.InitCreatesTheSchemeState := by
  intro s hs hlegal
  have hc : configCheck s.params s.cfgPort = none := configCheck_eq_none_iff.mpr hlegal
  obtain ⟨x, hx, -⟩ := createScheme_ok hc
  have created {y : SchemeState} (hy : createScheme s.params s.cfgPort = some y) : x = y :=
    Option.some.inj (hx.symm.trans hy)
  refine ⟨x, ?_, fun h => created (createScheme_static _ h), fun h => ?_, fun h => ?_, fun h => ?_⟩
  · rw [exec_init_legal hs hc, ← hx]
    rfl
  · exact ⟨_, created (createScheme_gshare _ h), rfl, Table.create_read _ _⟩
  · exact ⟨_, created (createScheme_tournament _ h), rfl, Table.create_read _ _, Table.create_read _ _,
      Table.create_read _ _, Table.create_read _ _⟩
  · obtain ⟨hrows, hend⟩ := createPerceptron_rows s.cfgPort
    exact ⟨_, created (createScheme_perceptron _ h), List.length_replicate, fun _ hb => List.eq_of_mem_replicate hb,
      hrows, hend, rfl, rfl⟩

/-! ### The step on a command (41_engine.md R130, R132) -/

/-- Settles O7: the step processes the presented word, which outside FAULTED is its decoded command. -/
theorem stepRunsTheDecodedCommand : Obligations.StepRunsTheDecodedCommand := by
  intro s w c rest i hi hs hd
  rw [step_command hi, runCommand, if_neg hs, hd]

/-- Settles O8: a word is refused before it is decoded, and a step that is no rst stays in FAULTED. -/
theorem faultedRefusesEveryCommand : Obligations.FaultedRefusesEveryCommand := by
  refine ⟨fun s w c rest hi hs => ?_, fun s t hs h ht => ?_⟩
  · rw [step_command hi, runCommand, if_pos hs]
    rfl
  · by_contra hrst
    obtain ⟨-, stays⟩ := firstFaultIsKeptUntilRst s t h (not_exists.mp hrst)
    exact ht (stays hs).1

/-! ### The commands out of order (60_exceptions.md R251) -/

/-- Settles O19: the two states that refuse a PREDICT, each with its fault entry. -/
theorem predictOutOfOrderFaults : Obligations.PredictOutOfOrderFaults := by
  intro s pc
  rw [← encode_predict]
  refine ⟨fun hs => ?_, fun hs => ?_⟩
  · simp only [exec, execPredict, hs]; rfl
  · simp only [exec, execPredict, hs]; rfl

/-- Settles O20: the two states that refuse a TRAIN and the pc that does not match, each with its fault entry. -/
theorem trainOutOfOrderFaults : Obligations.TrainOutOfOrderFaults := by
  intro s pc o
  rw [← encode_train]
  refine ⟨fun hs => ?_, fun hs => ?_, fun hs hpc => ?_⟩
  · simp only [exec, execTrain, hs]; rfl
  · simp only [exec, execTrain, hs]; rfl
  · simp only [exec, execTrain, hs, if_pos hpc]; rfl

/-! ### The static scheme (41_engine.md R142, R143) -/

theorem schemePredict_static {s : State} (ha : s.activeScheme = some .static) (pc : Word) :
    schemePredict s pc = some (true, s.scheme) := by
  simp only [schemePredict, ha]; rfl

theorem schemeTrain_static {s : State} (ha : s.activeScheme = some .static) (pc : Word) (o : Bool) :
    schemeTrain s pc o = some s.scheme := by
  simp only [schemeTrain, ha]; rfl

/-- Settles O21: the static body answers TAKEN and leaves the scheme state. -/
theorem staticPredictsTaken : Obligations.StaticPredictsTaken :=
  fun _ pc hs ha => exec_predict_ready hs (schemePredict_static ha pc)

/-- Settles O25: the static body leaves the scheme state. -/
theorem staticTrainChangesOnlyState : Obligations.StaticTrainChangesOnlyState :=
  fun _ o hs ha => exec_train_pending hs (schemeTrain_static ha _ o)

/-! ### The commands in order (41_engine.md R131) -/

/-- Settles O50: the record is legal, and the body of a configured block is never out of range. -/
theorem commandsInOrderComplete : Obligations.CommandsInOrderComplete := by
  intro s hb
  have clear {o : OpState} (hs : s.opState = o) (ho : o ≠ .faulted) : s.fcode = .noFault :=
    hb.noFault (hs ▸ ho)
  refine ⟨fun hs hlegal => ?_, fun hs pc => ?_, fun hs o => ?_⟩
  · exact ⟨_, exec_init_legal hs (configCheck_eq_none_iff.mpr hlegal), rfl, latchConfig_cfgRecord s, rfl,
      clear hs (by decide)⟩
  · obtain ⟨p, x, hp, -⟩ := schemePredict_ok (hb.configured (.inl hs)) pc
    exact ⟨_, x, p, exec_predict_ready hs hp, hp, rfl, rfl, rfl, congrArg some (respPred_respWord p _),
      clear hs (by decide)⟩
  · obtain ⟨x, hx, -⟩ := schemeTrain_ok (hb.configured (.inr hs)) s.pendPc o
    exact ⟨_, x, exec_train_pending hs hx, hx, rfl, rfl, rfl, congrArg some (respPred_respWord false _),
      clear hs (by decide)⟩

/-! ### Predicting again (41_engine.md R145; 44_perceptron.md R223) -/

/-- The perceptron's PREDICT body reads no latch, so in the state it leaves it answers the same. -/
theorem percPredict_again {e k : Nat} {h : Bool} {q q' : Perceptron} {pc : Word} {p : Bool}
    (hp : percPredict e k h q pc = some (p, q')) : percPredict e k h q' pc = some (p, q') := by
  simp only [percPredict, Option.bind_eq_bind, Option.bind_eq_some_iff, Option.pure_def, Option.some.injEq,
    Prod.mk.injEq] at hp ⊢
  obtain ⟨row, hrow, y, hy, rfl, rfl⟩ := hp
  exact ⟨row, hrow, y, hy, rfl, rfl⟩

theorem schemePredict_custom {s : State} {q : Perceptron} (ha : s.activeScheme = some .custom)
    (hq : s.scheme = some (.perceptron q)) (pc : Word) :
    schemePredict s pc = (percPredict s.percRows s.percHist (cfgPercHash s.cfg0) q pc).map
      fun r => (r.1, some (.perceptron r.2)) := by
  simp only [schemePredict, ha, hq]

/-- The PREDICT body on the scheme state that it leaves answers what it answered. -/
theorem schemePredict_again {s : State} {pc : Word} {p : Bool} {x : Option SchemeState}
    (hp : schemePredict s pc = some (p, x)) : schemePredict { s with scheme := x } pc = some (p, x) := by
  rcases schemePredict_some hp with ⟨-, -, rfl⟩ | ⟨_, -, -, -, rfl⟩ | ⟨_, -, -, -, rfl⟩ | ⟨q, q', ha, -, hq, rfl⟩
  · exact hp
  · exact hp
  · exact hp
  · rw [schemePredict_custom (s := { s with scheme := some (.perceptron q') }) ha rfl]
    exact congrArg (Option.map _) (percPredict_again hq)

/-- Settles O52: PREDICT completed with its body's prediction, and PEND_PC, STATE and the response, which it wrote
besides the scheme state, are not read by the body. -/
theorem trainSeesThePredictedState : Obligations.TrainSeesThePredictedState := by
  intro s t pc r _ hs h hr
  obtain ⟨p, x, hp, rfl⟩ := predict_ready_next hs h
  cases hr
  rw [respPred_respWord]
  have alike : SchemeReadsAlike { s with scheme := x }
      (respond p { s with scheme := x, pendPc := pc, opState := .pending }) :=
    ⟨rfl, rfl, fun _ => rfl, fun _ => ⟨rfl, rfl, rfl, rfl⟩, fun _ => ⟨rfl, rfl, rfl, rfl, rfl⟩⟩
  exact (alike.schemePredict_eq pc).trans (schemePredict_again hp)

/-! ### Runs of branches (70_reset_and_hazards.md R293, R297, R299) -/

section
variable {s : State} {c : CfgRecord} {rest : List Input}

/-- A PREDICT presented in READY completes. -/
theorem step_predict_ready {pc : Word} (hb : BlockInv s) (hs : s.opState = .ready)
    (hi : s.inputs = .command (encode (.predict pc)) c :: rest) :
    ∃ p x, schemePredict s pc = some (p, some x) ∧
      step s = .next (respond p
        { s with inputs := rest, cfgPort := c, scheme := some x, pendPc := pc, opState := .pending }) := by
  obtain ⟨p, x, hp, -⟩ := schemePredict_ok (hb.configured (.inl hs)) pc
  refine ⟨p, x, hp, ?_⟩
  rw [stepRunsTheDecodedCommand s _ c rest _ hi (by simp [hs]) (decode_encode _)]
  exact exec_predict_ready (s := { s with inputs := rest, cfgPort := c }) hs hp

/-- A TRAIN of the pending pc presented in PENDING completes. -/
theorem step_train_pending {o : Bool} (hb : BlockInv s) (hs : s.opState = .pending)
    (hi : s.inputs = .command (encode (.train s.pendPc o)) c :: rest) :
    ∃ x, schemeTrain s s.pendPc o = some (some x) ∧
      step s = .next (respond false
        { s with inputs := rest, cfgPort := c, scheme := some x, opState := .ready }) := by
  obtain ⟨x, hx, -⟩ := schemeTrain_ok (hb.configured (.inr hs)) s.pendPc o
  refine ⟨x, hx, ?_⟩
  rw [stepRunsTheDecodedCommand s _ c rest _ hi (by simp [hs]) (decode_encode _)]
  exact exec_train_pending (s := { s with inputs := rest, cfgPort := c }) hs hx

/-- One branch takes READY to READY in two steps, and keeps the invariant. -/
theorem step_branch {pc : Word} {o : Bool} (hb : BlockInv s) (hs : s.opState = .ready)
    (hi : s.inputs = presentAll c (branchCommands pc o) ++ rest) :
    ∃ u t, step s = .next u ∧ step u = .next t ∧ BlockInv t ∧ t.opState = .ready ∧ t.inputs = rest ∧
      t.resp = some (respWord false (status t)) := by
  obtain ⟨p, x, -, hu⟩ := step_predict_ready hb hs hi
  have hbu := stepKeepsTheInvariant _ _ hb hu
  obtain ⟨y, -, ht⟩ := step_train_pending hbu rfl rfl
  exact ⟨_, _, hu, ht, stepKeepsTheInvariant _ _ hbu ht, rfl, rfl, rfl⟩

/-- A list of branches runs to READY, with nothing left to present, and the last TRAIN's answer on resp. -/
theorem run_branches (c : CfgRecord) (bs : List (Word × Bool)) (hb : BlockInv s) (hs : s.opState = .ready)
    (hi : s.inputs = presentBranches c bs) :
    ∃ t, run (2 * bs.length) s = .next t ∧ BlockInv t ∧ t.opState = .ready ∧ t.inputs = [] ∧
      (bs ≠ [] → t.resp = some (respWord false (status t))) := by
  induction bs generalizing s with
  | nil => exact ⟨s, run_zero s, hb, hs, hi, fun h => absurd rfl h⟩
  | cons b bs ih =>
    obtain ⟨u, v, hsu, huv, hbv, hv, hiv, hresp⟩ := step_branch (rest := presentBranches c bs) hb hs hi
    obtain ⟨t, hrun, hbt, ht, hit, hrespt⟩ := ih hbv hv hiv
    refine ⟨t, ?_, hbt, ht, hit, fun _ => ?_⟩
    · exact (run_succ hsu _).trans ((run_succ huv _).trans hrun)
    · by_cases hbs : bs = []
      · subst hbs
        cases hrun
        exact hresp
      · exact hrespt hbs

end

/-- A response with STATUS as it stands in READY without a fault shows a complete run. -/
theorem runEndOf_ready {s : State} (hs : s.opState = .ready) (hf : s.fcode = .noFault) (p : Bool) :
    runEndOf (respWord p (status s)) = some .complete := by
  obtain ⟨hstate, -, hcode, -⟩ := statusWord_fields s.opState s.fcode s.fdetail
  rw [runEndOf, respStatus_respWord]
  exact if_pos ⟨hstate.trans (congrArg OpState.bits hs), hcode.trans (congrArg FaultCode.bits hf)⟩

/-- Settles O51: branch by branch, and the last answer shows READY without a fault. -/
theorem branchRunsComplete : Obligations.BranchRunsComplete := by
  intro s c bs hb hs
  obtain ⟨t, hrun, hbt, ht, hit, hresp⟩ :=
    run_branches (s := { s with inputs := presentBranches c bs }) c bs (hb.ports _ s.cfgPort) hs rfl
  have hf : t.fcode = .noFault := hbt.noFault (by simp [ht])
  refine ⟨t, hrun, ht, hf, hit, fun hbs => ?_⟩
  rw [State.runEnd, if_pos hit, hresp hbs]
  exact runEndOf_ready ht hf false

/-! ### Reset and then a command (41_engine.md R144) -/

/-- A run of at least one step is determined by the first step. -/
theorem run_succ_congr {s s' : State} (h : step s = step s') (n : Nat) : run (n + 1) s = run (n + 1) s' := by
  have h' : Sys2Proof.core.step s = Sys2Proof.core.step s' := h
  refine (Host.Core.run.eq_2 Sys2Proof.core s n).trans ?_
  rw [h']
  exact (Host.Core.run.eq_2 Sys2Proof.core s' n).symm

/-- A rst presented is taken (70_reset_and_hazards.md R290). -/
theorem step_rst {s : State} {rest : List Input} (hi : s.inputs = .rst :: rest) :
    step s = .next (applyRst { s with inputs := rest }) := by
  rw [step, takeNext, hi]
  rfl

/-- Settles O54: after the rst the two blocks differ in the cfg port at most, and the command sets it. -/
theorem resetInstancesAgree : Obligations.ResetInstancesAgree := by
  intro s s' w c rest hparams hi hi' n
  rw [run_succ (step_rst hi), run_succ (step_rst hi')]
  refine run_succ_congr ?_ n
  rw [step_command (s := applyRst { s with inputs := _ }) rfl, step_command (s := applyRst { s' with inputs := _ }) rfl]
  simp only [applyRst, hparams]

end Sys2Proof.Machine

/-! PROOFS. The gshare scheme: its index, PREDICT and TRAIN (42_gshare.md). -/

namespace Sys2Proof.Machine

/-! ### The index (42_gshare.md R160, R163) -/

/-- Settles O39: the mask is a remainder, which goes through XOR and leaves a GHR below 2^H. -/
theorem gShareIndexUsesTheLowPcBits : Obligations.GShareIndexUsesTheLowPcBits := by
  intro h ghr pc hghr
  refine ⟨?_, Nat.le_sub_one_of_lt (gidx_lt h ghr pc)⟩
  rw [gidx, and_mask, Nat.xor_mod_two_pow, Nat.mod_eq_of_lt hghr]

/-! ### PREDICT and TRAIN (42_gshare.md R161, R162) -/

section
variable {s : State} {g : GShare}

theorem schemePredict_gshare (ha : s.activeScheme = some .gshare) (hg : s.scheme = some (.gshare g))
    (hsize : g.pht.size = 2 ^ s.histBits) (pc : Word) :
    schemePredict s pc = some (ctrPredict (g.pht.entry (gidx s.histBits g.ghr pc)), s.scheme) := by
  simp only [schemePredict, ha, hg, gsharePredict_spec hsize, Option.map_some]

theorem schemeTrain_gshare (ha : s.activeScheme = some .gshare) (hg : s.scheme = some (.gshare g)) (pc : Word)
    (o : Bool) : schemeTrain s pc o = (gshareTrain s.histBits g pc o).map fun g' => some (.gshare g') := by
  simp only [schemeTrain, ha, hg]

end

/-- Settles O22: the index is in the table, and the body answers the threshold of the counter there. -/
theorem gSharePredictsByTheIndexedCounter : Obligations.GSharePredictsByTheIndexedCounter := by
  intro s g pc hs ha hg hsize
  have hi : gidx s.histBits g.ghr pc < g.pht.size := by rw [hsize]; exact gidx_lt _ _ _
  refine ⟨_, Table.read_of_lt hi, ?_⟩
  rw [exec_predict_ready hs (schemePredict_gshare ha hg hsize pc), ctrPredict_eq]
  rfl

/-- Settles O26: the body completes in a table of its size, and writes the one entry and the history. -/
theorem gShareTrainsTheIndexedCounter : Obligations.GShareTrainsTheIndexedCounter := by
  intro s g o hs ha hg hok
  obtain ⟨g', htrain, -⟩ := gshareTrain_spec hok s.pendPc o
  obtain ⟨v, hread, hwrite, hghr⟩ := gshareTrain_some htrain
  refine ⟨v, g', hread, ?_, ?_, Table.read_write hok.pht.2 hwrite⟩
  · exact exec_train_pending hs (by rw [schemeTrain_gshare ha hg, htrain, Option.map_some])
  · rw [hghr, histShift_eq]
    cases o <;> rfl

end Sys2Proof.Machine

/-! PROOFS. One outcome again and again: what it does to a counter, to a history, and to the scheme state of a run of
branches with one pc (40_counter_history.md R115, R118; 42_gshare.md R166; 43_tournament.md R191). -/

namespace Sys2Proof.Machine

/-- Two trainings or more with one outcome make a counter predict it (40_counter_history.md R115). -/
theorem ctrPredict_iterate_ctrTrain (v : Counter) (o : Bool) {n : Nat} (hn : 2 ≤ n) :
    ctrPredict ((ctrTrain · o)^[n] v) = o := by
  have hv := v.isLt
  cases o with
  | true => rw [ctrPredict_eq, ctrTrain_true_iterate_toNat, decide_eq_true_iff]; omega
  | false => rw [ctrPredict_eq, ctrTrain_false_iterate_toNat, decide_eq_false_iff_not]; omega

/-! ### The history -/

/-- The n-bit history in which every outcome is `o` (42_gshare.md R166). -/
def constHistory (o : Bool) (n : Nat) : Nat := if o then mask n else 0

theorem constHistory_testBit (o : Bool) {i n : Nat} (hi : i < n) : (constHistory o n).testBit i = o := by
  cases o with
  | true => exact (Nat.testBit_two_pow_sub_one n i).trans (decide_eq_true hi)
  | false => exact Nat.zero_testBit i

theorem constHistory_lt (o : Bool) (n : Nat) : constHistory o n < 2 ^ n := by
  have := Nat.two_pow_pos n
  cases o with
  | true => exact Nat.sub_lt this Nat.one_pos
  | false => exact this

/-- `h` is an n-bit history whose latest `k` outcomes are all `o`. -/
structure HistoryRepeats (o : Bool) (n k h : Nat) : Prop where
  lt : h < 2 ^ n
  bit : ∀ i, i < k → i < n → h.testBit i = o

/-- Of any history the latest 0 outcomes are. -/
theorem HistoryRepeats.zero {o : Bool} {n h : Nat} (hlt : h < 2 ^ n) : HistoryRepeats o n 0 h :=
  ⟨hlt, fun _ hi => absurd hi (Nat.not_lt_zero _)⟩

/-- One more outcome `o` makes one more of them. -/
theorem HistoryRepeats.shift {o : Bool} {n k h : Nat} (hr : HistoryRepeats o n k h) :
    HistoryRepeats o n (k + 1) (histShift h o n) where
  lt := histShift_lt h o n
  bit
    | 0, _, hn => histShift_testBit_zero h o hn
    | i + 1, hk, hn => (histShift_testBit_succ h o hn).trans (hr.bit i (by omega) (by omega))

/-- From n outcomes on, the history is fixed (42_gshare.md R166). -/
theorem HistoryRepeats.eq_constHistory {o : Bool} {n k h : Nat} (hr : HistoryRepeats o n k h) (hk : n ≤ k) :
    h = constHistory o n := by
  refine Nat.eq_of_testBit_eq fun i => ?_
  by_cases hi : i < n
  · rw [hr.bit i (by omega) hi, constHistory_testBit o hi]
  · have hpow : 2 ^ n ≤ 2 ^ i := Nat.pow_le_pow_right Nat.two_pos (Nat.le_of_not_lt hi)
    rw [Nat.testBit_lt_two_pow (hr.lt.trans_le hpow), Nat.testBit_lt_two_pow ((constHistory_lt o n).trans_le hpow)]

/-! ### The run -/

/-- CFG0 alone says which scheme is active and how wide its history is. -/
theorem activeScheme_of_cfg0 {s t : State} (h : t.cfg0 = s.cfg0) : t.activeScheme = s.activeScheme :=
  congrArg (fun c => schemeOfCode (cfgSchemeCode c)) h

theorem histBits_of_cfg0 {s t : State} (h : t.cfg0 = s.cfg0) : t.histBits = s.histBits := congrArg cfgH h

section
variable {s : State} {c : CfgRecord} {rest : List Input} {pc : Word} {o : Bool}

/-- One branch, in two steps: outside the perceptron the scheme state is then what the TRAIN body makes of the one
before the PREDICT. -/
theorem step_branch_trains (hb : BlockInv s) (hs : s.opState = .ready) (ha : s.activeScheme ≠ some .custom)
    (hi : s.inputs = presentAll c (branchCommands pc o) ++ rest) :
    ∃ u t, step s = .next u ∧ step u = .next t ∧ BlockInv t ∧ t.opState = .ready ∧ t.inputs = rest ∧
      t.cfg0 = s.cfg0 ∧ schemeTrain s pc o = some t.scheme := by
  obtain ⟨p, x, hp, hu⟩ := step_predict_ready hb hs hi
  have hbu := stepKeepsTheInvariant _ _ hb hu
  obtain ⟨y, hy, ht⟩ := step_train_pending hbu rfl rfl
  refine ⟨_, _, hu, ht, stepKeepsTheInvariant _ _ hbu ht, rfl, rfl, rfl, ?_⟩
  refine (SchemeReadsAlike.schemeTrain_eq ?_ pc o).symm.trans hy
  exact ⟨schemePredict_scheme hp ha, rfl, fun _ => rfl, fun _ => ⟨rfl, rfl, rfl, rfl⟩,
    fun _ => ⟨rfl, rfl, rfl, rfl, rfl⟩⟩

/-- What every TRAIN of the pc with the outcome carries from k to k + 1, n branches carry from k to k + n. -/
theorem run_repeated_branch {P : Nat → Option SchemeState → Prop} (n : Nat) {k : Nat}
    (hP : ∀ k u y, u.cfg0 = s.cfg0 → P k u.scheme → schemeTrain u pc o = some y → P (k + 1) y)
    (hb : BlockInv s) (hs : s.opState = .ready) (ha : s.activeScheme ≠ some .custom)
    (hi : s.inputs = presentBranches c (List.replicate n (pc, o))) (hk : P k s.scheme) :
    ∃ t, run (2 * n) s = .next t ∧ t.opState = .ready ∧ t.cfg0 = s.cfg0 ∧ P (k + n) t.scheme := by
  induction n generalizing s k with
  | zero => exact ⟨s, run_zero s, hs, rfl, hk⟩
  | succ n ih =>
    obtain ⟨u, v, hsu, huv, hbv, hv, hiv, hv0, htrain⟩ :=
      step_branch_trains (rest := presentBranches c (List.replicate n (pc, o))) hb hs ha hi
    have hav : v.activeScheme ≠ some .custom := activeScheme_of_cfg0 hv0 ▸ ha
    obtain ⟨t, hrun, ht, ht0, hPt⟩ :=
      ih (fun k w y hw => hP k w y (hw.trans hv0)) hbv hv hav hiv (hP k s _ rfl hk htrain)
    refine ⟨t, (run_succ hsu _).trans ((run_succ huv _).trans hrun), ht, ht0.trans hv0, ?_⟩
    rwa [Nat.add_assoc, Nat.add_comm 1 n] at hPt

end

/-! ### GShare convergence (42_gshare.md R166) -/

/-- The scheme state of a configured gshare block. -/
theorem Latched.gshare {s : State} (h : Latched s) (ha : s.activeScheme = some .gshare) :
    ∃ g, s.scheme = some (.gshare g) ∧ GShareOk s.histBits g := by
  obtain ⟨-, x, hx, hok⟩ := h
  rcases hok.cases with ⟨ha', -⟩ | ⟨g, -, rfl, hg⟩ | ⟨_, ha', -⟩ | ⟨_, ha', -⟩
  · simp [ha] at ha'
  · exact ⟨g, hx, hg⟩
  · simp [ha] at ha'
  · simp [ha] at ha'

/-- How far gshare is after k trainings of one pc with one outcome: the latest k outcomes are in GHR, and the counter
that the fixed GHR will index has been trained at every repetition after the first H. -/
structure GShareConverging (h : Nat) (pc : Word) (o : Bool) (k : Nat) (g : GShare) : Prop where
  ok : GShareOk h g
  ghr : HistoryRepeats o h k g.ghr
  counter : ∃ v, g.pht.entry (gidx h (constHistory o h) pc) = (ctrTrain · o)^[k - h] v

section
variable {h k : Nat} {pc : Word} {o : Bool} {g g' : GShare}

theorem GShareConverging.start (hg : GShareOk h g) : GShareConverging h pc o 0 g where
  ok := hg
  ghr := .zero hg.ghr
  counter := ⟨_, by rw [Nat.zero_sub]; rfl⟩

/-- One more training: while GHR still fills, nothing is claimed of the counter; from then on GHR is fixed and the
training is the counter's. -/
theorem GShareConverging.train (hc : GShareConverging h pc o k g) (ht : gshareTrain h g pc o = some g') :
    GShareConverging h pc o (k + 1) g' := by
  obtain ⟨g'', ht', hok, hghr, -, hentry⟩ := gshareTrain_spec hc.ok pc o
  obtain rfl : g' = g'' := Option.some.inj (ht.symm.trans ht')
  refine ⟨hok, hghr ▸ hc.ghr.shift, ?_⟩
  by_cases hk : k < h
  · exact ⟨_, by rw [Nat.sub_eq_zero_of_le hk]; rfl⟩
  · obtain ⟨v, hv⟩ := hc.counter
    rw [← hc.ghr.eq_constHistory (Nat.le_of_not_lt hk)] at hv ⊢
    refine ⟨v, ?_⟩
    rw [hentry, if_pos rfl, hv, Nat.succ_sub (Nat.le_of_not_lt hk), Function.iterate_succ_apply']

/-- H + 2 trainings or more, and the counter that PREDICT reads predicts the outcome. -/
theorem GShareConverging.predicts (hc : GShareConverging h pc o k g) (hk : h + 2 ≤ k) :
    ctrPredict (g.pht.entry (gidx h g.ghr pc)) = o := by
  obtain ⟨v, hv⟩ := hc.counter
  rw [hc.ghr.eq_constHistory (by omega), hv]
  exact ctrPredict_iterate_ctrTrain v o (by omega)

end

/-- The scheme state is gshare's, k trainings on. -/
def GShareSchemeConverging (h : Nat) (pc : Word) (o : Bool) (k : Nat) (x : Option SchemeState) : Prop :=
  ∃ g, x = some (.gshare g) ∧ GShareConverging h pc o k g

/-- A TRAIN of the block is one more training. -/
theorem GShareSchemeConverging.train {s : State} {pc : Word} {o : Bool} {k : Nat} {y : Option SchemeState}
    (ha : s.activeScheme = some .gshare) (hx : GShareSchemeConverging s.histBits pc o k s.scheme)
    (ht : schemeTrain s pc o = some y) : GShareSchemeConverging s.histBits pc o (k + 1) y := by
  obtain ⟨g, hg, hc⟩ := hx
  rw [schemeTrain_gshare ha hg] at ht
  obtain ⟨g', hg', rfl⟩ := Option.map_eq_some_iff.mp ht
  exact ⟨g', rfl, hc.train hg'⟩

/-- Settles O55: n branches are n trainings of the scheme state, and after them PREDICT reads the trained counter. -/
theorem gShareConverges : Obligations.GShareConverges := by
  intro s c pc o n hb hs ha hn
  obtain ⟨g, hg, hok⟩ := (hb.configured (.inl hs)).gshare ha
  have trains (k : Nat) (u : State) (y : Option SchemeState) (hu : u.cfg0 = s.cfg0)
      (hx : GShareSchemeConverging s.histBits pc o k u.scheme) (hy : schemeTrain u pc o = some y) :
      GShareSchemeConverging s.histBits pc o (k + 1) y := by
    rw [← histBits_of_cfg0 hu] at hx ⊢
    exact hx.train ((activeScheme_of_cfg0 hu).trans ha) hy
  have hcustom : s.activeScheme ≠ some .custom := by simp [ha]
  obtain ⟨t, hrun, ht, ht0, g', hg', hc⟩ :=
    run_repeated_branch (s := { s with inputs := presentBranches c (List.replicate n (pc, o)) }) n trains
      (hb.ports _ s.cfgPort) hs hcustom rfl ⟨g, hg, .start hok⟩
  have hat : t.activeScheme = some .gshare := (activeScheme_of_cfg0 ht0).trans ha
  have hbits : t.histBits = s.histBits := histBits_of_cfg0 ht0
  rw [Nat.zero_add, ← hbits] at hc
  refine ⟨t, _, _, hrun, exec_predict_ready ht (schemePredict_gshare hat hg' hc.ok.pht.1 pc), rfl, ?_⟩
  rw [respPred_respWord]
  exact hc.predicts (hbits ▸ hn)

end Sys2Proof.Machine

/-! PROOFS. The tournament scheme: PREDICT, TRAIN and the chooser, and what one pc with one outcome converges to
(43_tournament.md). -/

namespace Sys2Proof.Machine

/-! ### PREDICT and TRAIN (43_tournament.md R181 to R185) -/

section
variable {s : State} {t : Tournament}

theorem schemePredict_tournament (ha : s.activeScheme = some .tournament) (ht : s.scheme = some (.tournament t))
    (pc : Word) :
    schemePredict s pc =
      (tourPredict s.histBits s.pcBits (cfgTourXor s.cfg0) t pc).map fun p => (p, s.scheme) := by
  simp only [schemePredict, ha, ht]

theorem schemeTrain_tournament (ha : s.activeScheme = some .tournament) (ht : s.scheme = some (.tournament t))
    (pc : Word) (o : Bool) :
    schemeTrain s pc o = (tourTrain s.histBits s.localBits s.pcBits (cfgTourXor s.cfg0) t pc o).map
      fun t' => some (.tournament t') := by
  simp only [schemeTrain, ha, ht]

end

section
variable {h l p : Nat} {x : Bool} {t t' : Tournament} {pc : Word} {o gp lp : Bool}

/-- The four entries that a tournament command reads are in their tables (43_tournament.md R189). -/
theorem TournamentOk.reads (ht : TournamentOk h l p t) (x : Bool) (pc : Word) :
    t.chooser.read t.ghr = some (t.chooser.entry t.ghr) ∧
    t.gpht.read (tgidx h x t.ghr pc) = some (t.gpht.entry (tgidx h x t.ghr pc)) ∧
    t.lht.read (lslot p pc) = some (t.lht.entry (lslot p pc)) ∧
    t.lpht.read (t.lht.entry (lslot p pc)) = some (t.lpht.entry (t.lht.entry (lslot p pc))) :=
  ⟨Table.read_of_lt (ht.chooser.1.symm ▸ ht.ghr), Table.read_of_lt (ht.gpht.1.symm ▸ tgidx_lt ht.ghr x pc),
    Table.read_of_lt (ht.lht.1.symm ▸ lslot_lt p pc), Table.read_of_lt (ht.lpht.1.symm ▸ ht.local_lt _)⟩

/-- What the chooser reads as after its update (43_tournament.md R185, R186). -/
theorem trainChooser_read {c c' : Table Counter} {ci : Nat} {v : Counter} (hw : c.wf) (hv : c.read ci = some v)
    (h : trainChooser c ci gp lp o = some c') (j : Nat) :
    c'.read j = if j = ci ∧ gp ≠ lp then some (ctrTrain v (lp == o)) else c.read j := by
  unfold trainChooser at h
  by_cases hd : gp = lp
  · rw [if_pos hd] at h
    cases h
    exact (if_neg fun hj => hj.2 hd).symm
  · rw [if_neg hd, hv] at h
    rw [Table.read_write hw h j]
    simp only [ne_eq, hd, not_false_eq_true, and_true]

/-- The chooser is trained on the two sub-predictions that PREDICT makes (43_tournament.md R190). -/
theorem tourTrain_chooser (he : tourTrain h l p x t pc o = some t') (hg : globalPred h x t pc = some gp)
    (hl : localPred p t pc = some lp) : trainChooser t.chooser t.ghr gp lp o = some t'.chooser := by
  obtain ⟨lh, gv, lv, hlh, hgv, hlv, hchooser, -⟩ := tourTrain_some he
  obtain rfl : ctrPredict gv = gp := by simpa [globalPred, hgv] using hg
  obtain rfl : ctrPredict lv = lp := by simpa [localPred, hlh, hlv] using hl
  exact hchooser

end

/-- hist_shift as arithmetic, the outcome as a bit (40_counter_history.md R117). -/
theorem histShift_eq_ite (h : Nat) (o : Bool) (n : Nat) :
    histShift h o n = (2 * h + if o then 1 else 0) % 2 ^ n := by
  rw [histShift_eq]
  cases o <;> rfl

/-- Settles O23: the four entries read are in their tables, and the body answers the threshold of the chosen one. -/
theorem tournamentPredictsByTheChosenCounter : Obligations.TournamentPredictsByTheChosenCounter := by
  intro s t pc hs ha ht hok
  obtain ⟨hc, hg, hlh, hl⟩ := hok.reads (cfgTourXor s.cfg0) pc
  refine ⟨_, _, _, _, hc, hg, hlh, hl, ?_⟩
  have body := schemePredict_tournament ha ht pc
  rw [tourPredict_spec hok, Option.map_some, ctrPredict_eq, ctrPredict_eq] at body
  exact exec_predict_ready hs body

/-- Settles O27: the body completes, and each of its writes reads back over the table of the pre-state. -/
theorem tournamentTrainsFromThePreState : Obligations.TournamentTrainsFromThePreState := by
  intro s t o hs ha ht hok
  obtain ⟨hc, -⟩ := hok.reads (cfgTourXor s.cfg0) s.pendPc
  obtain ⟨t', htrain, -⟩ := tourTrain_spec hok (cfgTourXor s.cfg0) s.pendPc o
  obtain ⟨lh, gv, lv, hlh, hgv, hlv, hchooser, hgpht, hlpht, hlht, hghr⟩ := tourTrain_some htrain
  rw [histShift_eq_ite] at hlht hghr
  refine ⟨_, gv, lh, lv, t', hc, hgv, hlh, hlv, ?_, trainChooser_read hok.chooser.2 hc hchooser,
    Table.read_write hok.gpht.2 hgpht, hghr, Table.read_write hok.lpht.2 hlpht, Table.read_write hok.lht.2 hlht⟩
  exact exec_train_pending hs (by rw [schemeTrain_tournament ha ht, htrain, Option.map_some])

/-! ### The chooser (43_tournament.md R187) -/

/-- PREDICT leaves a tournament scheme state as it is, whatever the command answers. -/
theorem exec_predict_keeps_tournament {s s' : State} {pc : Word} {t : Tournament}
    (ht : s.scheme = some (.tournament t)) (h : exec (.predict pc) s = .next s') :
    s'.scheme = some (.tournament t) := by
  rcases exec_next h with ⟨-, rfl⟩ | ⟨_, _, -, -, -, hf⟩ | hc
  · exact ht
  · cases hf; exact ht
  · cases hc with
    | predict _ p x _ hp =>
      have hcustom : s.activeScheme ≠ some .custom := fun ha => by
        obtain ⟨q, _, hq, -⟩ := schemePredict_perceptron hp ha
        simp [ht] at hq
      exact (schemePredict_scheme hp hcustom).trans ht

/-- Settles O40: the chooser is written at GHR on a disagreement only, by the counter's saturating step. -/
theorem chooserChangesOnlyOnDisagreement : Obligations.ChooserChangesOnlyOnDisagreement := by
  refine ⟨fun h l p x t t' pc o gp lp hok htrain hgp hlp => ?_, fun s s' pc t ht hnext =>
    ⟨t, exec_predict_keeps_tournament ht hnext, rfl⟩⟩
  have hchooser := tourTrain_chooser htrain hgp hlp
  obtain ⟨hc, -⟩ := hok.reads x pc
  have reads := trainChooser_read hok.chooser.2 hc hchooser
  refine ⟨fun heq => ?_, fun j hj => ?_, fun hne v hv => ?_⟩
  · rw [trainChooser, if_pos heq] at hchooser
    exact (Option.some.inj hchooser).symm
  · by_contra hn
    exact hj ((reads j).trans (if_neg fun ⟨hghr, hne⟩ => hn ⟨hne, hghr⟩))
  · have trained := trainChooser_read hok.chooser.2 hv hchooser t.ghr
    rw [if_pos ⟨rfl, hne⟩] at trained
    refine ⟨trained, ?_, ?_⟩
    · rintro rfl rfl
      rw [trained, beq_self_eq_true]
      rfl
    · rintro rfl rfl
      rw [trained, beq_false_of_ne hne.symm]
      rfl

/-! ### Convergence (43_tournament.md R191) -/

/-- The scheme state of a configured tournament block. -/
theorem Latched.tournament {s : State} (h : Latched s) (ha : s.activeScheme = some .tournament) :
    ∃ t, s.scheme = some (.tournament t) ∧ TournamentOk s.histBits s.localBits s.pcBits t := by
  obtain ⟨-, x, hx, hok⟩ := h
  rcases hok.cases with ⟨ha', -⟩ | ⟨_, ha', -⟩ | ⟨t, -, rfl, ht⟩ | ⟨_, ha', -⟩
  · simp [ha] at ha'
  · simp [ha] at ha'
  · exact ⟨t, hx, ht⟩
  · simp [ha] at ha'

/-- Of k repetitions of an outcome, counter `v` has been trained at every one after the first n. -/
def TrainedAfter (o : Bool) (n k : Nat) (v : Counter) : Prop := ∃ u, v = (ctrTrain · o)^[k - n] u

/-- Of the first n repetitions nothing is claimed. -/
theorem TrainedAfter.of_le {o : Bool} {n k : Nat} (hk : k ≤ n) (v : Counter) : TrainedAfter o n k v :=
  ⟨v, by rw [Nat.sub_eq_zero_of_le hk]; rfl⟩

/-- One more repetition: the counter needs to be trained at it only when the first n are over. -/
theorem TrainedAfter.succ {o : Bool} {n k : Nat} {v v' : Counter} (h : TrainedAfter o n k v)
    (hv : n ≤ k → v' = ctrTrain v o) : TrainedAfter o n (k + 1) v' := by
  by_cases hk : n ≤ k
  · obtain ⟨u, rfl⟩ := h
    exact ⟨u, by rw [hv hk, Nat.succ_sub hk, Function.iterate_succ_apply']⟩
  · exact .of_le (by omega) v'

/-- Two repetitions after the first n, the counter predicts the outcome. -/
theorem TrainedAfter.predicts {o : Bool} {n k : Nat} {v : Counter} (h : TrainedAfter o n k v) (hk : n + 2 ≤ k) :
    ctrPredict v = o := by
  obtain ⟨u, rfl⟩ := h
  exact ctrPredict_iterate_ctrTrain u o (by omega)

/-- How far the tournament is after k trainings of one pc with one outcome: the latest k outcomes are in GHR and in the
pc's local history, and the counters that the two will index once they are fixed have been trained since. -/
structure TournamentConverging (h l p : Nat) (x : Bool) (pc : Word) (o : Bool) (k : Nat) (t : Tournament) : Prop where
  ok : TournamentOk h l p t
  ghr : HistoryRepeats o h k t.ghr
  localHistory : HistoryRepeats o l k (t.lht.entry (lslot p pc))
  globalCounter : TrainedAfter o h k (t.gpht.entry (tgidx h x (constHistory o h) pc))
  localCounter : TrainedAfter o l k (t.lpht.entry (constHistory o l))

section
variable {h l p k : Nat} {x : Bool} {pc : Word} {o : Bool} {t t' : Tournament}

theorem TournamentConverging.start (ht : TournamentOk h l p t) : TournamentConverging h l p x pc o 0 t where
  ok := ht
  ghr := .zero ht.ghr
  localHistory := .zero (ht.local_lt _)
  globalCounter := .of_le (Nat.zero_le h) _
  localCounter := .of_le (Nat.zero_le l) _

/-- One more training, each side on its own: once its history is fixed, the training is its counter's. -/
theorem TournamentConverging.train (hc : TournamentConverging h l p x pc o k t)
    (ht : tourTrain h l p x t pc o = some t') : TournamentConverging h l p x pc o (k + 1) t' := by
  obtain ⟨t'', ht', hok, hghr, -, hgpht, -, hlpht, hlht, -⟩ := tourTrain_spec hc.ok x pc o
  obtain rfl : t' = t'' := Option.some.inj (ht.symm.trans ht')
  refine ⟨hok, hghr ▸ hc.ghr.shift, ?_, hc.globalCounter.succ fun hk => ?_, hc.localCounter.succ fun hk => ?_⟩
  · rw [hlht, if_pos rfl]
    exact hc.localHistory.shift
  · rw [← hc.ghr.eq_constHistory hk, hgpht, if_pos rfl]
  · rw [← hc.localHistory.eq_constHistory hk, hlpht, if_pos rfl]

/-- max(H, L) + 2 trainings or more, and PREDICT answers the outcome, whichever side the chooser selects. -/
theorem TournamentConverging.predicts (hc : TournamentConverging h l p x pc o k t) (hk : max h l + 2 ≤ k) :
    tourPredict h p x t pc = some o := by
  have hglobal : ctrPredict (t.gpht.entry (tgidx h x t.ghr pc)) = o := by
    rw [hc.ghr.eq_constHistory (by omega)]
    exact hc.globalCounter.predicts (by omega)
  have hlocal : ctrPredict (t.lpht.entry (t.lht.entry (lslot p pc))) = o := by
    rw [hc.localHistory.eq_constHistory (by omega)]
    exact hc.localCounter.predicts (by omega)
  rw [tourPredict_spec hc.ok, hglobal, hlocal, ite_self]

end

/-- The scheme state is the tournament's under CFG0, k trainings on. -/
def TournamentSchemeConverging (cfg0 : Word) (pc : Word) (o : Bool) (k : Nat) (x : Option SchemeState) : Prop :=
  ∃ t, x = some (.tournament t) ∧
    TournamentConverging (cfgH cfg0) (cfgL cfg0) (cfgP cfg0) (cfgTourXor cfg0) pc o k t

/-- A TRAIN of the block is one more training. -/
theorem TournamentSchemeConverging.train {s : State} {pc : Word} {o : Bool} {k : Nat} {y : Option SchemeState}
    (ha : s.activeScheme = some .tournament) (hx : TournamentSchemeConverging s.cfg0 pc o k s.scheme)
    (ht : schemeTrain s pc o = some y) : TournamentSchemeConverging s.cfg0 pc o (k + 1) y := by
  obtain ⟨t, hs, hc⟩ := hx
  rw [schemeTrain_tournament ha hs] at ht
  obtain ⟨t', ht', rfl⟩ := Option.map_eq_some_iff.mp ht
  exact ⟨t', rfl, hc.train ht'⟩

/-- Settles O56: n branches are n trainings of the scheme state, and after them both sub-predictions are the outcome. -/
theorem tournamentConverges : Obligations.TournamentConverges := by
  intro s c pc o n hb hs ha hn
  obtain ⟨t₀, ht₀, hok⟩ := (hb.configured (.inl hs)).tournament ha
  have trains (k : Nat) (u : State) (y : Option SchemeState) (hu : u.cfg0 = s.cfg0)
      (hx : TournamentSchemeConverging s.cfg0 pc o k u.scheme) (hy : schemeTrain u pc o = some y) :
      TournamentSchemeConverging s.cfg0 pc o (k + 1) y := by
    rw [← hu] at hx ⊢
    exact hx.train ((activeScheme_of_cfg0 hu).trans ha) hy
  have hcustom : s.activeScheme ≠ some .custom := by simp [ha]
  obtain ⟨t, hrun, hready, hcfg, hconv⟩ :=
    run_repeated_branch (s := { s with inputs := presentBranches c (List.replicate n (pc, o)) }) n trains
      (hb.ports _ s.cfgPort) hs hcustom rfl ⟨t₀, ht₀, .start hok⟩
  rw [Nat.zero_add, ← hcfg] at hconv
  obtain ⟨t₁, ht₁, hc⟩ := hconv
  have bound : max (cfgH t.cfg0) (cfgL t.cfg0) + 2 ≤ n := by rw [hcfg]; exact hn
  have body := schemePredict_tournament ((activeScheme_of_cfg0 hcfg).trans ha) ht₁ pc
  rw [State.histBits, State.pcBits, hc.predicts bound, Option.map_some] at body
  exact ⟨t, _, _, hrun, exec_predict_ready hready body, rfl, respPred_respWord o _⟩

end Sys2Proof.Machine

/-! PROOFS. The perceptron scheme: the vector history, the weighted sum, PREDICT, TRAIN and the latches
(44_perceptron.md). -/

namespace Sys2Proof.Machine

/-! ### The vector history (40_counter_history.md R119; 44_perceptron.md R217) -/

/-- A history that outcomes are shifted into is a window over the two one after the other. -/
theorem foldl_percShift_eq_drop {h : List Bool} (hh : h ≠ []) (os : List Bool) :
    os.foldl percShift h = (h ++ os).drop os.length := by
  induction os generalizing h with
  | nil => simp
  | cons o os ih =>
    obtain ⟨b, bs, rfl⟩ := List.exists_cons_of_ne_nil hh
    have hshift : percShift (b :: bs) o = bs ++ [o] := rfl
    rw [List.foldl_cons, hshift, ih (by simp)]
    simp

/-- After a shift the newest outcome stands last. -/
theorem percShift_getD_last {h : List Bool} {k : Nat} (hl : h.length = k) (o : Bool) :
    (percShift h o).getD (k - 1) false = o := by
  have hlen : (h.drop 1).length = k - 1 := by simp [hl]
  rw [percShift, List.getD_append_right _ _ _ _ hlen.le, hlen, Nat.sub_self]
  rfl

/-- After a shift every other entry is the one above it before. -/
theorem percShift_getD {h : List Bool} {j : Nat} (hj : j + 1 < h.length) (o : Bool) :
    (percShift h o).getD j false = h.getD (j + 1) false := by
  rw [percShift, List.getD_append _ _ _ _ (by rw [List.length_drop]; omega)]
  simp [List.getD_eq_getElem?_getD]

/-- Settles O38: the history is the last K entries of K zeros followed by the outcomes. -/
theorem vectorHistoryHoldsRecentOutcomes : Obligations.VectorHistoryHoldsRecentOutcomes := by
  intro k os j hj
  have hne : List.replicate k false ≠ [] := by rw [ne_eq, List.replicate_eq_nil_iff]; omega
  rw [foldl_percShift_eq_drop hne os]
  refine ⟨by simp, ?_⟩
  rw [List.getD_eq_getElem?_getD, List.getElem?_drop, ← List.getD_eq_getElem?_getD]
  split
  · next hle => rw [List.getD_append_right _ _ _ _ (by simpa using hle), List.length_replicate]
  · next hlt =>
    have hj' : os.length + j < k := by omega
    rw [List.getD_append _ _ _ _ (by simpa using hj'), List.getD_replicate _ hj']

/-! ### A row by index (44_perceptron.md R211, R215) -/

/-- Pairing the weights after the bias with the history, newest outcome first, pairs weight i with `h[K-i]`. -/
theorem zipWith_reverse_eq_map (f : Bool → Int → Int) {k : Nat} {phr : List Bool} {ws : List Int} (b : Int)
    (hp : phr.length = k) (hw : ws.length = k) :
    List.zipWith f phr.reverse ws =
      (List.range' 1 k).map fun i => f (phr.getD (k - i) false) ((b :: ws).getD i 0) := by
  refine List.ext_getElem (by simp [hp, hw]) fun j hj _ => ?_
  obtain ⟨hjp, hjw⟩ : j < phr.reverse.length ∧ j < ws.length := by simpa using hj
  have history : phr.getD (k - (1 + j)) false = phr.reverse[j] := by
    rw [List.getElem_reverse, List.getD_eq_getElem _ _ (by omega)]
    congr 1
    omega
  have weight : (b :: ws).getD (1 + j) 0 = ws[j] := by
    rw [Nat.add_comm, List.getD_cons_succ, List.getD_eq_getElem]
  rw [List.getElem_zipWith, List.getElem_map, List.getElem_range', Nat.one_mul, history, weight]

/-- The sum that PREDICT forms is the sum by index. -/
theorem weightedSum_eq_indexedSum {k : Nat} {phr : List Bool} {row : List Int} (hp : phr.length = k)
    (hr : row.length = k + 1) : weightedSum phr row = indexedSum k phr row := by
  obtain ⟨b, ws, rfl⟩ := List.exists_cons_of_length_eq_add_one hr
  rw [weightedSum, zipWith_reverse_eq_map _ b hp (Nat.succ.inj hr)]
  rfl

/-- A sum is formed exactly for a K-bit history and a row of K+1 weights. -/
theorem percSum_eq_some_iff {k : Nat} {phr : List Bool} {row : List Int} {y : Int} :
    percSum k phr row = some y ↔ (phr.length = k ∧ row.length = k + 1) ∧ weightedSum phr row = y := by
  rw [percSum, Option.ite_none_right_eq_some, Option.some.injEq]

/-- Training moves the bias toward the outcome. -/
theorem trainRow_getD_zero (w : Nat) (phr : List Bool) (o : Bool) {row : List Int} (hr : row ≠ []) :
    (trainRow w phr o row).getD 0 0 = clamp (row.getD 0 0 + if o then 1 else -1) (-(w : Int)) ((w : Int) - 1) := by
  obtain ⟨b, ws, rfl⟩ := List.exists_cons_of_ne_nil hr
  rfl

/-- Training moves weight i up when `h[K-i]` agrees with the outcome, and down when it does not. -/
theorem trainRow_getD {k i : Nat} {phr : List Bool} {row : List Int} (hp : phr.length = k)
    (hr : row.length = k + 1) (hi : 1 ≤ i) (hik : i ≤ k) (w : Nat) (o : Bool) :
    (trainRow w phr o row).getD i 0 =
      clamp (row.getD i 0 + if phr.getD (k - i) false = o then 1 else -1) (-(w : Int)) ((w : Int) - 1) := by
  obtain ⟨b, ws, rfl⟩ := List.exists_cons_of_length_eq_add_one hr
  obtain ⟨j, rfl⟩ := Nat.exists_eq_add_of_le hi
  have hj : j < k := by omega
  rw [trainRow, zipWith_reverse_eq_map _ b hp (Nat.succ.inj hr), Nat.add_comm 1 j, List.getD_cons_succ,
    List.getD_eq_getElem _ _ (by simpa using hj), List.getElem_map, List.getElem_range', Nat.one_mul,
    Nat.add_comm 1 j]

/-! ### The ranges (44_perceptron.md R213, R216) -/

/-- Settles O41: the bounds of the sum over a row in range, and the sum by index. -/
theorem weightedSumStaysInRange : Obligations.WeightedSumStaysInRange := by
  intro k w phr row y hr hy
  obtain ⟨⟨hp, hl⟩, rfl⟩ := percSum_eq_some_iff.mp hy
  obtain ⟨hlower, hupper⟩ := weightedSum_bounds phr hr
  exact ⟨weightedSum_eq_indexedSum hp hl, hlower, hupper, weightedSum_natAbs_le phr hr⟩

/-- A weight in range that moves one step and is clamped moves by at most one. -/
theorem clamp_step_natAbs_le {x lo hi : Int} (hx : lo ≤ x ∧ x ≤ hi) (up : Prop) [Decidable up] :
    (clamp (x + if up then 1 else -1) lo hi - x).natAbs ≤ 1 := by
  unfold clamp
  split_ifs <;> omega

/-- Settles O42: the bias and each weight after it move one step and are clamped. -/
theorem trainedWeightsStayClamped : Obligations.TrainedWeightsStayClamped := by
  intro k w phr o row hw hp hr
  refine ⟨trainRow_ok hw hp hr o, fun i hi => ?_⟩
  obtain ⟨hl, hrange⟩ := hr
  have hx : -(w : Int) ≤ row.getD i 0 ∧ row.getD i 0 ≤ (w : Int) - 1 := by
    rw [List.getD_eq_getElem _ _ (by omega)]
    exact hrange _ (List.getElem_mem _)
  cases i with
  | zero =>
    rw [trainRow_getD_zero w phr o (List.ne_nil_of_length_eq_add_one hl)]
    exact clamp_step_natAbs_le hx _
  | succ i =>
    rw [trainRow_getD hp hl (Nat.succ_pos i) hi]
    exact clamp_step_natAbs_le hx _

/-! ### The gate (44_perceptron.md R214, R219, R220) -/

/-- The gate opens on a sum within THETA, and on a wrong prediction. -/
theorem trainNow_iff {theta : Nat} {q : Perceptron} {o : Bool} :
    trainNow theta q o = true ↔ q.lastMag ≤ theta ∨ q.lastPred ≠ o := by
  simp [trainNow]

/-- Settles O44: the gate against 0, against the largest magnitude, and for a magnitude of 0. -/
theorem thresholdCornerCases : Obligations.ThresholdCornerCases := by
  intro e k w q o hq
  refine ⟨?_, fun theta htheta => ?_, fun theta hmag => ?_⟩
  · rw [trainNow_iff, Nat.le_zero, or_comm]
  · exact trainNow_iff.mpr (.inl (hq.mag.trans htheta))
  · exact trainNow_iff.mpr (.inl (hmag.trans_le (Nat.zero_le theta)))

/-! ### PREDICT (44_perceptron.md R210 to R212) -/

section
variable {e k w : Nat} {q : Perceptron}

/-- The row that a command selects is in the table. -/
theorem PerceptronOk.read (hq : PerceptronOk e k w q) {r : Nat} (hr : r < e) :
    q.wt.read r = some (q.wt.entry r) :=
  Table.read_of_lt (hq.wt.1.symm ▸ hr)

/-- Over a row of its table the sum is the sum by index. -/
theorem PerceptronOk.weightedSum_eq (hq : PerceptronOk e k w q) (r : Nat) :
    weightedSum q.phr (q.wt.entry r) = indexedSum k q.phr (q.wt.entry r) :=
  weightedSum_eq_indexedSum hq.phr (hq.rows r).1

/-- A weight in range leaves W no smaller than 1. -/
theorem PerceptronOk.one_le_clamp (hq : PerceptronOk e k w q) : 1 ≤ w := by
  obtain ⟨hl, hrange⟩ := hq.rows 0
  have hpos : 0 < (q.wt.entry 0).length := by omega
  obtain ⟨b, hb⟩ := List.exists_mem_of_length_pos hpos
  have := hrange b hb
  omega

end

/-- Settles O24: the selected row is in the table, and the body answers the sign of its sum by index. -/
theorem perceptronPredictsByTheWeightedSum : Obligations.PerceptronPredictsByTheWeightedSum := by
  intro s q pc hs ha hq he hok
  refine ⟨_, hok.read (prow_lt he (cfgPercHash s.cfg0) q.phr pc), ?_⟩
  have body := schemePredict_custom ha hq pc
  rw [percPredict_spec he hok, hok.weightedSum_eq, Option.map_some] at body
  exact exec_predict_ready hs body

/-! ### The latches (44_perceptron.md R223) -/

/-- What the invariant says of the scheme state of a configured perceptron. -/
theorem Latched.perceptron {s : State} {q : Perceptron} (h : Latched s) (hq : s.scheme = some (.perceptron q)) :
    1 ≤ s.percRows ∧ PerceptronOk s.percRows s.percHist s.percClamp q ∧
      (s.opState = .pending → LatchOk s.percRows s.percHist (cfgPercHash s.cfg0) s.pendPc q) := by
  obtain ⟨hlegal, x, hx, hok⟩ := h
  obtain rfl : x = .perceptron q := Option.some.inj (hx.symm.trans hq)
  rcases hok.cases with ⟨-, hx⟩ | ⟨_, -, hx, -⟩ | ⟨_, -, hx, -⟩ | ⟨_, ha, hx, hq, hlatch⟩ <;> cases hx
  obtain ⟨he, -, -⟩ := custom_bounds hlegal ha
  exact ⟨he, hq, hlatch⟩

/-- Settles O53: the latches of the invariant, with their sum written by index. -/
theorem latchesHoldThePendingSum : Obligations.LatchesHoldThePendingSum := by
  intro s q hb hs hq
  obtain ⟨he, hok, hlatch⟩ := (hb.configured (.inr hs)).perceptron hq
  obtain ⟨hpred, hmag, -⟩ := hlatch hs
  rw [hok.weightedSum_eq] at hpred hmag
  exact ⟨_, hok.read (prow_lt he _ _ _), hpred, hmag⟩

/-! ### TRAIN (44_perceptron.md R214 to R217) -/

theorem schemeTrain_custom {s : State} {q : Perceptron} (ha : s.activeScheme = some .custom)
    (hq : s.scheme = some (.perceptron q)) (pc : Word) (o : Bool) :
    schemeTrain s pc o =
      (percTrain s.percRows s.percHist s.percTheta s.percClamp (cfgPercHash s.cfg0) q pc o).map
        fun q' => some (.perceptron q') := by
  simp only [schemeTrain, ha, hq]

/-- Settles O28: the body completes; with the gate open it writes the trained row and no other, with the gate closed it
keeps the table, and it shifts the outcome into the history in both. -/
theorem perceptronTrainsTheSelectedRow : Obligations.PerceptronTrainsTheSelectedRow := by
  intro s q o hs ha hq he hk hok
  have hrow := prow_lt he (cfgPercHash s.cfg0) q.phr s.pendPc
  have hw := hok.one_le_clamp
  obtain ⟨wt, htrain, hok', hclosed, hopen⟩ :=
    percTrain_spec he hk hw hok s.percTheta (cfgPercHash s.cfg0) s.pendPc o
  have body := schemeTrain_custom ha hq s.pendPc o
  rw [htrain, Option.map_some] at body
  refine ⟨_, { q with wt := wt, phr := percShift q.phr o }, hok.read hrow, exec_train_pending hs body, rfl, rfl,
    hok'.phr, percShift_getD_last hok.phr o, fun j hj => ?_, fun hgate => ⟨⟨_, hok'.read hrow, ?_⟩, ?_⟩,
    fun hmag hpred => hclosed ?_⟩
  · exact percShift_getD (hok.phr.symm ▸ hj) o
  · rw [hopen (trainNow_iff.mpr hgate), if_pos rfl]
    have hlen := (hok.rows (prow s.percRows (cfgPercHash s.cfg0) q.phr s.pendPc)).1
    exact ⟨(trainRow_ok hw hok.phr (hok.rows _) o).1,
      trainRow_getD_zero _ _ o (List.ne_nil_of_length_eq_add_one hlen),
      fun i hi hik => trainRow_getD hok.phr hlen hi hik _ o⟩
  · exact (percTrain_some htrain).2
  · rw [← Bool.not_eq_true, trainNow_iff]
    exact fun hgate => hgate.elim hmag.not_ge fun hwrong => hwrong hpred

end Sys2Proof.Machine

/-! PROOFS. The modes of the block: the idle step, the fault entry and the moves of STATE (60_exceptions.md). -/

namespace Sys2Proof.Machine

/-- Settles O11: there is no presentation to take. -/
theorem idleBlockHoldsItsState : Obligations.IdleBlockHoldsItsState := by
  intro s hi
  rw [step, takeNext, hi]

/-! ### The fault entry (60_exceptions.md R251, R256, R257) -/

/-- INIT in READY or PENDING takes REINIT before it reads the record. -/
theorem exec_init_configured {s : State} (hs : s.opState = .ready ∨ s.opState = .pending) :
    exec .init s = raiseFault .reinit .noDetail (encode .init) s := by
  rcases hs with hs | hs
  · simp only [exec, execInit, hs]
  · simp only [exec, execInit, hs]

/-- Settles O15: the fault entry, with the word of INIT written out. -/
theorem secondInitTakesReinit : Obligations.SecondInitTakesReinit := by
  intro s hs
  rw [exec_init_configured hs, encode_init]
  rfl

/-- The fault entry records its code and ends in FAULTED. -/
theorem raiseFault_next {code : FaultCode} {d : FaultDetail} {w : CmdWord} {s t : State}
    (h : raiseFault code d w s = .next t) : t.fcode = code ∧ t.opState = .faulted := by
  cases h
  exact ⟨rfl, rfl⟩

/-- A fault moves STATE into FAULTED from another STATE. -/
theorem TakesFault.opState {w : CmdWord} {s t : State} (h : TakesFault w s t) :
    s.opState ≠ .faulted ∧ t.opState = .faulted := by
  obtain ⟨_, _, hs, -, -, hf⟩ := h
  exact ⟨hs, (raiseFault_next hf).2⟩

/-- A command that completes does not end in FAULTED. -/
theorem Completes.opState_ne_faulted {s t : State} {i : Instr} (h : Completes s i t) : t.opState ≠ .faulted := by
  cases h <;> simp

/-- Only an INIT in UNCONFIGURED records CONFIG_ERROR (41_engine.md R133). -/
theorem exec_configError {i : Instr} {s t : State} (h : exec i s = .next t) (hs : s.fcode ≠ .configError)
    (ht : t.fcode = .configError) : s.opState = .unconfigured := by
  have other {code : FaultCode} {d : FaultDetail} {w : CmdWord} (hf : raiseFault code d w s = .next t) :
      code = .configError := (raiseFault_next hf).1.symm.trans ht
  cases i with
  | init =>
    rcases execInit_next h with ⟨-, rfl⟩ | ⟨-, hf⟩ | ⟨_, hu, -⟩ | ⟨hu, -⟩
    · exact absurd ht hs
    · cases other hf
    · exact hu
    · exact hu
  | predict pc =>
    rcases execPredict_next h with ⟨-, rfl⟩ | ⟨hu, -⟩ | ⟨-, hf⟩ | ⟨_, _, -, -, rfl⟩
    · exact absurd ht hs
    · exact hu
    · cases other hf
    · exact absurd ht hs
  | train pc o =>
    rcases execTrain_next h with ⟨-, rfl⟩ | ⟨hu, -⟩ | ⟨-, hf⟩ | ⟨-, -, hf⟩ | ⟨_, -, -, -, rfl⟩
    · exact absurd ht hs
    · exact hu
    · cases other hf
    · cases other hf
    · exact absurd ht hs

/-- The step that records CONFIG_ERROR is a command presented in UNCONFIGURED. -/
theorem step_configError {s t : State} (h : step s = .next t) (hs : s.fcode ≠ .configError)
    (ht : t.fcode = .configError) :
    s.opState = .unconfigured ∧ ∃ w c rest, s.inputs = .command w c :: rest := by
  rcases step_next h with ⟨-, rfl⟩ | ⟨rest, -, rfl⟩ | ⟨w, c, rest, hi, ⟨-, rfl⟩ | ⟨-, -, hf⟩ | ⟨i, -, -, he⟩⟩
  · exact absurd ht hs
  · cases ht
  · exact absurd ht hs
  · cases (raiseFault_next hf).1.symm.trans ht
  · have hu := exec_configError he hs ht
    exact ⟨hu, w, c, rest, hi⟩

/-- A command step into FAULTED is the fault entry on the presented word. -/
theorem step_into_faulted {s t : State} {w : CmdWord} {c : CfgRecord} {rest : List Input}
    (hi : s.inputs = .command w c :: rest) (hs : s.opState ≠ .faulted) (h : step s = .next t)
    (ht : t.opState = .faulted) : TakesFault w { s with inputs := rest, cfgPort := c } t := by
  rcases step_command_next hi h with ⟨hs', -⟩ | hf | ⟨i, -, hc⟩
  · exact absurd hs' hs
  · exact hf
  · exact absurd ht hc.opState_ne_faulted

/-- Settles O17: such a step is the fault entry, which writes the fault record and STATE only; and CONFIG_ERROR comes
from UNCONFIGURED, where by the invariant no configuration is latched. -/
theorem faultsArePrecise : Obligations.FaultsArePrecise := by
  refine ⟨fun s t w c rest hi hs h ht => ?_, fun s t hb h hs ht => ?_⟩
  · obtain ⟨code, d, -, hcode, -, hf⟩ := step_into_faulted hi hs h ht
    cases hf
    exact ⟨rfl, hcode⟩
  · have hfaulted : t.opState = .faulted := (stepKeepsTheInvariant s t hb h).faultRecord.code.mpr (by simp [ht])
    obtain ⟨hu, w, c, rest, hi⟩ := step_configError h (by simp [hs]) ht
    obtain ⟨_, _, -, -, -, hf⟩ := step_into_faulted hi (by simp [hu]) h hfaulted
    obtain ⟨hscheme, h0, h1, h2, h3, h4, -⟩ := hb.unconfigured hu
    cases hf
    exact ⟨hscheme, h0, h1, h2, h3, h4⟩

/-! ### The moves of STATE (60_exceptions.md R270) -/

/-- Settles O32, case by case of what a step can do: an idle step and a refusal keep STATE, and every other case is an
arrow of the table. -/
theorem stateMovesAsTheModeTableSays : Obligations.StateMovesAsTheModeTableSays := by
  intro s t h hmove
  rcases step_cases h with ⟨-, rfl⟩ | ⟨rest, hi, rfl⟩ | ⟨w, c, rest, hi⟩
  · exact absurd rfl hmove
  · exact .inl ⟨rest, hi, rfl⟩
  · refine .inr ⟨w, c, rest, hi, ?_⟩
    rcases step_command_next hi h with ⟨-, rfl⟩ | hf | ⟨i, hd, hc⟩
    · exact absurd rfl hmove
    · exact .inr (.inr (.inr hf.opState))
    · cases hc with
      | init hs hck => exact .inl ⟨hs, rfl, hd⟩
      | predict pc p x hs hp => exact .inr (.inl ⟨hs, rfl, pc, hd⟩)
      | train o x hs hx => exact .inr (.inr (.inl ⟨hs, rfl, o, hd⟩))

end Sys2Proof.Machine

/-! PROOFS. Reset: what rst leaves, and that it is the power-on state (70_reset_and_hazards.md R290, R291). -/

namespace Sys2Proof.Machine

/-- Settles O9: the rst presented is taken, and it writes every register of the power-on state. -/
theorem rstClearsEveryRegister : Obligations.RstClearsEveryRegister := by
  intro s rest hi
  rw [step_rst hi, applyRst, State.reset]

/-- Settles O10: the registers of the power-on state one by one, and the rst presented is taken. -/
theorem powerOnEqualsRst : Obligations.PowerOnEqualsRst := by
  obtain ⟨-, hstatus, -⟩ := statusShowsStateAndFault
  refine ⟨reset_opState, hstatus, reset_cfg0, reset_cfg1, reset_cfg2, reset_cfg3, reset_cfg4, reset_fcmd,
    reset_pendPc, reset_scheme, fun s rest hi => ?_⟩
  rw [step_rst hi, applyRst]

end Sys2Proof.Machine
